-- ==== Sys2Proof/Word.lean ====
section
/-! DEFINITION. The widths of the block's values and the records its tables hold (R6, R23 of spec/). -/

namespace Sys2Proof

/-- A command word, or the data word of a response: 64 bits (R70, R71). -/
abbrev Word := BitVec 64

/-- A symbol, a character, an opcode, a result code: 8 bits. -/
abbrev Byte := BitVec 8

/-- A frequency-table entry: `FW` = 32 bits, unsigned (R24). -/
abbrev Freq := BitVec 32

/-- A node frequency: `NFW` = 40 bits, unsigned (R23, R131). -/
abbrev NodeFreq := BitVec 40

/-- A code length: `LENW` = 8 bits, unsigned (R25). -/
abbrev CodeLen := BitVec 8

/-- A stored code: `MAXLEN` = 255 bits, bit `i` the path element `i` (R25). -/
abbrev CodeBits := BitVec 255

/-- A node index, 0..510. Nine bits carry it in `left`, `right` and `DEC_CUR`; the value 511 is never
used (R51), so it is not a value here. DEDUCED, log entry 8. -/
abbrev NodeIndex := Fin 511

/-- The kind of a node (R23). -/
inductive NodeKind where
  | leaf
  | compound
  deriving DecidableEq, Repr, Inhabited

/-- One record of the node arena (R23). A leaf's symbol is its index; its `left` and `right` are 0. -/
structure Node where
  kind  : NodeKind
  freq  : NodeFreq
  left  : NodeIndex
  right : NodeIndex
  deriving DecidableEq, Repr, Inhabited

end Sys2Proof
end

