-- ==== Sys2Proof/Syntax.lean ====
section
/-! DEFINITION. The 17 commands of HTB-CMD (R72), one constructor a row of spec/opcode_table.json, and the opcodes' names. -/

namespace Sys2Proof

/-- A command with the operands its row of R72 uses: `SYM` 8 bits, `IDX` 16 bits, `ARG` 32 bits (R70, R80). -/
inductive Instr where
  | nop
  | softReset
  | getStatus
  | clearErr
  | freqWrite (sym : Byte) (arg : Freq)
  | freqRead (sym : Byte)
  | buildTree
  | nodeRead (idx : BitVec 16)
  | buildTable
  | codeLenRead (sym : Byte)
  | codeBitsRead (sym : Byte) (idx : BitVec 16)
  | encStart
  | encSym (sym : Byte)
  | encEnd
  | decStart
  | decChar (ch : Byte)
  | decEos
  deriving DecidableEq, Repr

/-- The assigned opcodes, by name (R72). -/
inductive Opcode where
  | nop | softReset | getStatus | clearErr
  | freqWrite | freqRead
  | buildTree | nodeRead
  | buildTable | codeLenRead | codeBitsRead
  | encStart | encSym | encEnd
  | decStart | decChar | decEos
  deriving DecidableEq, Repr

/-- Why a command word, or a byte sequence, is no command. -/
inductive DecodeError where
  /-- `OPC` is not one of the 17 values of R72 (R73 case a). -/
  | reservedOpcode
  /-- A field that R72 marks `0` for the opcode is not zero (R73 case b). -/
  | unusedField
  /-- Fewer than the 8 bytes of one command word (R52, R70). DESIGN CHOICE, log entry 15. -/
  | truncated
  deriving DecidableEq, Repr

/-- The outcome of decoding: a command, or a rejection by name. -/
inductive Decoded (α : Type) where
  | accept (a : α)
  | reject (e : DecodeError)
  deriving DecidableEq, Repr

end Sys2Proof
end

