-- ==== Sys2Proof/WellFormed.lean ====
section
/-! DEFINITION. The operand ranges of R74: what makes a command of legal form well formed. A legal word that is not
well formed is performed too, and raises `BAD_OPERAND` (R75). -/

namespace Sys2Proof

/-- R74: `NODE_READ` needs `IDX` <= 510, `CODE_BITS_READ` needs `IDX` <= 7; no other command has a range restriction. -/
def Instr.wellFormed : Instr → Bool
  | .nodeRead idx       => decide (idx.toNat ≤ 510)
  | .codeBitsRead _ idx => decide (idx.toNat ≤ 7)
  | .nop | .softReset | .getStatus | .clearErr | .freqWrite _ _ | .freqRead _ | .buildTree | .buildTable
  | .codeLenRead _ | .encStart | .encSym _ | .encEnd | .decStart | .decChar _ | .decEos => true

end Sys2Proof
end

