-- ==== Sys2Proof/Decode.lean ====
section
/-! DEFINITION. The command word's fields, the opcode map, the decoder and the encoder (R70, R72, R73, R80; the byte
order of a transport, R52). -/

namespace Sys2Proof

/-! ## Fields of the command word (R70) -/

/-- `OPC` = w[7:0]. -/
def opcField (w : Word) : Byte := w.extractLsb' 0 8

/-- `SYM` = w[15:8]. -/
def symField (w : Word) : Byte := w.extractLsb' 8 8

/-- `IDX` = w[31:16]. -/
def idxField (w : Word) : BitVec 16 := w.extractLsb' 16 16

/-- `ARG` = w[63:32]. -/
def argField (w : Word) : Freq := w.extractLsb' 32 32

/-- The 64-bit word that holds `v` in the bits from bit `lo` up, and 0 elsewhere (R7). -/
def place {n : Nat} (v : BitVec n) (lo : Nat) : Word := v.setWidth 64 <<< lo

/-- The command word with these four fields. -/
def packFields (opc sym : Byte) (idx : BitVec 16) (arg : Freq) : Word :=
  place opc 0 ||| place sym 8 ||| place idx 16 ||| place arg 32

/-! ## The opcode map (R72) -/

/-- The opcode byte of R72. -/
def Opcode.toByte : Opcode → Byte
  | .nop          => 0x00
  | .softReset    => 0x01
  | .getStatus    => 0x02
  | .clearErr     => 0x03
  | .freqWrite    => 0x10
  | .freqRead     => 0x11
  | .buildTree    => 0x20
  | .nodeRead     => 0x21
  | .buildTable   => 0x30
  | .codeLenRead  => 0x31
  | .codeBitsRead => 0x32
  | .encStart     => 0x40
  | .encSym       => 0x41
  | .encEnd       => 0x42
  | .decStart     => 0x50
  | .decChar      => 0x51
  | .decEos       => 0x52

/-- Every assigned opcode, in the table's order. -/
def Opcode.all : List Opcode :=
  [.nop, .softReset, .getStatus, .clearErr, .freqWrite, .freqRead, .buildTree, .nodeRead, .buildTable,
   .codeLenRead, .codeBitsRead, .encStart, .encSym, .encEnd, .decStart, .decChar, .decEos]

/-- The opcode a byte stands for; none for the 239 reserved values (R73). -/
def Opcode.ofByte? (b : Byte) : Option Opcode := Opcode.all.find? fun o => o.toByte == b

/-- Does R72 give the opcode an operand in `SYM`? -/
def Opcode.usesSym : Opcode → Bool
  | .freqWrite | .freqRead | .codeLenRead | .codeBitsRead | .encSym | .decChar => true
  | .nop | .softReset | .getStatus | .clearErr | .buildTree | .nodeRead | .buildTable
  | .encStart | .encEnd | .decStart | .decEos => false

/-- Does R72 give the opcode an operand in `IDX`? -/
def Opcode.usesIdx : Opcode → Bool
  | .nodeRead | .codeBitsRead => true
  | .nop | .softReset | .getStatus | .clearErr | .freqWrite | .freqRead | .buildTree | .buildTable
  | .codeLenRead | .encStart | .encSym | .encEnd | .decStart | .decChar | .decEos => false

/-- Does R72 give the opcode an operand in `ARG`? -/
def Opcode.usesArg : Opcode → Bool
  | .freqWrite => true
  | .nop | .softReset | .getStatus | .clearErr | .freqRead | .buildTree | .nodeRead | .buildTable
  | .codeLenRead | .codeBitsRead | .encStart | .encSym | .encEnd | .decStart | .decChar | .decEos => false

/-- R73 case b: every field that R72 marks `0` for the opcode is zero. -/
def Opcode.unusedZero (o : Opcode) (sym : Byte) (idx : BitVec 16) (arg : Freq) : Bool :=
  (o.usesSym || sym == 0) && (o.usesIdx || idx == 0) && (o.usesArg || arg == 0)

/-- The command of an opcode with its operands taken from the fields unchanged (R80). -/
def Opcode.build (o : Opcode) (sym : Byte) (idx : BitVec 16) (arg : Freq) : Instr :=
  match o with
  | .nop          => .nop
  | .softReset    => .softReset
  | .getStatus    => .getStatus
  | .clearErr     => .clearErr
  | .freqWrite    => .freqWrite sym arg
  | .freqRead     => .freqRead sym
  | .buildTree    => .buildTree
  | .nodeRead     => .nodeRead idx
  | .buildTable   => .buildTable
  | .codeLenRead  => .codeLenRead sym
  | .codeBitsRead => .codeBitsRead sym idx
  | .encStart     => .encStart
  | .encSym       => .encSym sym
  | .encEnd       => .encEnd
  | .decStart     => .decStart
  | .decChar      => .decChar sym
  | .decEos       => .decEos

/-! ## The decoder (R70 to R75) -/

/-- The command a word stands for. `IDX` ranges are no matter of decoding: they raise `BAD_OPERAND` when the command
is performed (R75). -/
def decode (w : Word) : Decoded Instr :=
  match Opcode.ofByte? (opcField w) with
  | none => .reject .reservedOpcode
  | some o =>
    if o.unusedZero (symField w) (idxField w) (argField w) then
      .accept (o.build (symField w) (idxField w) (argField w))
    else .reject .unusedField

/-! ## The encoder (R70, R72) -/

/-- The opcode of a command. -/
def Instr.opcode : Instr → Opcode
  | .nop              => .nop
  | .softReset        => .softReset
  | .getStatus        => .getStatus
  | .clearErr         => .clearErr
  | .freqWrite _ _    => .freqWrite
  | .freqRead _       => .freqRead
  | .buildTree        => .buildTree
  | .nodeRead _       => .nodeRead
  | .buildTable       => .buildTable
  | .codeLenRead _    => .codeLenRead
  | .codeBitsRead _ _ => .codeBitsRead
  | .encStart         => .encStart
  | .encSym _         => .encSym
  | .encEnd           => .encEnd
  | .decStart         => .decStart
  | .decChar _        => .decChar
  | .decEos           => .decEos

/-- The command word of a command, row by row from the table of R72; a field the row marks `0` is zero. -/
def encode : Instr → Word
  | .nop                  => packFields 0x00 0 0 0
  | .softReset            => packFields 0x01 0 0 0
  | .getStatus            => packFields 0x02 0 0 0
  | .clearErr             => packFields 0x03 0 0 0
  | .freqWrite sym arg    => packFields 0x10 sym 0 arg
  | .freqRead sym         => packFields 0x11 sym 0 0
  | .buildTree            => packFields 0x20 0 0 0
  | .nodeRead idx         => packFields 0x21 0 idx 0
  | .buildTable           => packFields 0x30 0 0 0
  | .codeLenRead sym      => packFields 0x31 sym 0 0
  | .codeBitsRead sym idx => packFields 0x32 sym idx 0
  | .encStart             => packFields 0x40 0 0 0
  | .encSym sym           => packFields 0x41 sym 0 0
  | .encEnd               => packFields 0x42 0 0 0
  | .decStart             => packFields 0x50 0 0 0
  | .decChar ch           => packFields 0x51 ch 0 0
  | .decEos               => packFields 0x52 0 0 0

/-! ## The match/mask pairs (R72, second table) -/

/-- The `match` column of R72. -/
def Opcode.matchWord : Opcode → Word
  | .nop          => 0x0000000000000000
  | .softReset    => 0x0000000000000001
  | .getStatus    => 0x0000000000000002
  | .clearErr     => 0x0000000000000003
  | .freqWrite    => 0x0000000000000010
  | .freqRead     => 0x0000000000000011
  | .buildTree    => 0x0000000000000020
  | .nodeRead     => 0x0000000000000021
  | .buildTable   => 0x0000000000000030
  | .codeLenRead  => 0x0000000000000031
  | .codeBitsRead => 0x0000000000000032
  | .encStart     => 0x0000000000000040
  | .encSym       => 0x0000000000000041
  | .encEnd       => 0x0000000000000042
  | .decStart     => 0x0000000000000050
  | .decChar      => 0x0000000000000051
  | .decEos       => 0x0000000000000052

/-- The `mask` column of R72. -/
def Opcode.maskWord : Opcode → Word
  | .nop          => 0xFFFFFFFFFFFFFFFF
  | .softReset    => 0xFFFFFFFFFFFFFFFF
  | .getStatus    => 0xFFFFFFFFFFFFFFFF
  | .clearErr     => 0xFFFFFFFFFFFFFFFF
  | .freqWrite    => 0x00000000FFFF00FF
  | .freqRead     => 0xFFFFFFFFFFFF00FF
  | .buildTree    => 0xFFFFFFFFFFFFFFFF
  | .nodeRead     => 0xFFFFFFFF0000FFFF
  | .buildTable   => 0xFFFFFFFFFFFFFFFF
  | .codeLenRead  => 0xFFFFFFFFFFFF00FF
  | .codeBitsRead => 0xFFFFFFFF000000FF
  | .encStart     => 0xFFFFFFFFFFFFFFFF
  | .encSym       => 0xFFFFFFFFFFFF00FF
  | .encEnd       => 0xFFFFFFFFFFFFFFFF
  | .decStart     => 0xFFFFFFFFFFFFFFFF
  | .decChar      => 0xFFFFFFFFFFFF00FF
  | .decEos       => 0xFFFFFFFFFFFFFFFF

/-! ## Words carried as bytes (R52) -/

/-- The 8 bytes of a 64-bit word on a byte-serial transport: byte `k` carries bits [8k+7 : 8k]. -/
def transportBytes (w : Word) : List Byte := (List.range 8).map fun k => w.extractLsb' (8 * k) 8

/-- The word of 8 transported bytes, and the bytes after them; none where fewer than 8 remain. -/
def wordOfTransport? : List Byte → Option (Word × List Byte)
  | b0 :: b1 :: b2 :: b3 :: b4 :: b5 :: b6 :: b7 :: rest =>
    some (place b0 0 ||| place b1 8 ||| place b2 16 ||| place b3 24 ||| place b4 32 ||| place b5 40 ||| place b6 48
      ||| place b7 56, rest)
  | _ => none

/-- The command at the head of a transported byte sequence, and the bytes after it. -/
def decodeBytes (bs : List Byte) : Decoded (Instr × List Byte) :=
  match wordOfTransport? bs with
  | none => .reject .truncated
  | some (w, rest) =>
    match decode w with
    | .accept i => .accept (i, rest)
    | .reject e => .reject e

/-- The command word whose low `nbits` bits are those of `w`, the bits above them zero. -/
def tableWord (nbits w : Nat) : Word := BitVec.ofNat 64 (w % 2 ^ nbits)

/-- What the decoder reads from the command word that spec/opcode_table.json numbers `w`. -/
def decodeTableWord (nbits w : Nat) : Option Instr :=
  match decodeBytes (transportBytes (tableWord nbits w)) with
  | .accept (i, _) => some i
  | .reject _ => none

end Sys2Proof
end

