-- ==== Sys2Proof/Config.lean ====
section
/-! DEFINITION. The implementation parameters of R6, what an implementation leaves open, and the free values. -/

namespace Sys2Proof.Config

/-- `ROOT`: the root's node index (R6, R127). -/
def root : NodeIndex := 510

/-- `SEQ_FIRST_COMPOUND`: the merge counter's first value (R6, R121). -/
def seqFirstCompound : Nat := 256

/-- `NMERGE`: the merges of one build (R6). -/
def nMerge : Nat := 255

/-- `SENTINEL`: the end-of-transmission byte value (R6). -/
def sentinel : Byte := 4

/-- `CH0`: the character for bit 0 (R6). PRESUMED, log entry 14: the spec marks the value as general knowledge. -/
def ch0 : Byte := 0x30

/-- `CH1`: the character for bit 1 (R6). PRESUMED, log entry 14. -/
def ch1 : Byte := 0x31

/-- `OUT_CAPACITY`: how many bytes an output port buffers (R6: OPEN). No body: nothing can be proved of its value. -/
opaque outCapacity : Nat

/-- Free value (log entry 6): the room left in an output port when the host ceases to consume it, before the bound
`outCapacity` is applied. -/
opaque freeRoom : Nat → Nat

/-- Free value (log entry 4): the unspecified content of `NODE` after a reset (R23, R230), per draw and index. -/
opaque freeNode : Nat → Nat → Node

/-- Free value (log entry 4): the unspecified content of `LEN` after a reset (R25, R230), per draw and symbol. -/
opaque freeLen : Nat → Nat → CodeLen

/-- Free value (log entry 4): the unspecified content of `CODE` after a reset (R25, R230), per draw and symbol. -/
opaque freeCode : Nat → Nat → CodeBits

/-- Free value (log entry 7): how many bytes of a cut command's encoder output were delivered (R231). -/
opaque freeCutEnc : Nat → Nat

/-- Free value (log entry 7): how many bytes of a cut command's decoder output were delivered (R231). -/
opaque freeCutDec : Nat → Nat

end Sys2Proof.Config
end

