-- ==== Sys2Proof/Machine/State.lean ====
section
/-! DEFINITION. The state of the block (spec/10_state.md), the host's side of its ports, and the state after reset. -/

namespace Sys2Proof.Machine

/-- `ENC_STATE` (R27). -/
inductive EncState where
  | idle
  | active
  deriving DecidableEq, Repr

/-- `DEC_STATE` (R29); the value 3 never occurs. -/
inductive DecState where
  | idle
  | active
  | done
  deriving DecidableEq, Repr

/-- The result codes a command can return (R200); 7..255 are reserved and never returned. -/
inductive ResultCode where
  | ok
  | illegalCmd
  | badOperand
  | badState
  | zeroFreq
  | malformedSymbol
  | malformedEos
  deriving DecidableEq, Repr

/-- The response of a command: `RC` and `DATA` (R71). -/
structure Response where
  rc   : ResultCode
  data : Word
  deriving DecidableEq, Repr

/-- The two output streams (R32). -/
inductive Stream where
  | enc
  | dec
  deriving DecidableEq, Repr

/-- What the host does next at the block's ports. DESIGN CHOICE, log entry 1. -/
inductive HostEvent where
  /-- It issues a command word and waits for the response (R58). -/
  | command (w : Word)
  /-- It asserts hardware reset while the block is between commands (R231). -/
  | hardReset
  /-- It issues a command word and asserts hardware reset while that command is in progress (R231). -/
  | cutCommand (w : Word)
  /-- From here on it never consumes the stream again (R235). Log entry 6. -/
  | stopConsuming (st : Stream)
  deriving DecidableEq, Repr

/-- The machine's state. The fields down to `decOut` are the block's (R22 to R32); the rest are the model's own. -/
structure State where
  /-- `FREQ[0..255]` (R24). -/
  freq : Vector Freq 256
  /-- `NODE[0..510]` (R22, R23). -/
  node : Vector Node 511
  /-- `LEN[0..255]` (R25). -/
  len : Vector CodeLen 256
  /-- `CODE[0..255]` (R25). -/
  code : Vector CodeBits 256
  /-- `TREE_VALID` (R26). -/
  treeValid : Bool
  /-- `TABLE_VALID` (R26). -/
  tableValid : Bool
  /-- `ENC_STATE` (R27). -/
  encState : EncState
  /-- `SENT_IN_DATA` (R28). -/
  sentInData : Bool
  /-- `DEC_STATE` (R29). -/
  decState : DecState
  /-- `DEC_CUR` (R30). -/
  decCur : NodeIndex
  /-- `ERR` (R31). -/
  err : Bool
  /-- `ERR_CODE` (R31). -/
  errCode : Byte
  /-- `ERR_OPC` (R31). -/
  errOpc : Byte
  /-- `ENC_OUT`: every byte appended so far, first one first (R32). -/
  encOut : List Byte
  /-- `DEC_OUT`: every byte appended so far, first one first (R32). -/
  decOut : List Byte
  /-- The host's pending events, the next one first. Model's own, log entry 1. -/
  port : List HostEvent
  /-- Every response returned so far, oldest first (R36, R237). Model's own, log entry 2. -/
  responses : List Response
  /-- none: the host consumes `ENC_OUT`; some k: it never does again and the port accepts k more bytes.
  Model's own, log entry 6. -/
  encRoom : Option Nat
  /-- The same for `DEC_OUT`. Model's own, log entry 6. -/
  decRoom : Option Nat
  /-- The counter free values are drawn with. Model's own, log entry 4. -/
  draws : Nat
  deriving DecidableEq, Repr

/-- Why the machine stops. -/
inductive Fault where
  /-- Raised by ENC_SYM, ENC_END and DEC_CHAR: the command must emit, its output port is full and the host never
  consumes the stream, so the command never completes (R235; U10: stuck). Safe: the model stops where the hardware
  hangs. -/
  | outputHang
  deriving DecidableEq, Repr

/-- Why an instruction has no meaning. -/
inductive Refusal where
  /-- Raised only by an arm of `exec` whose instruction is not modelled yet; no arm is left that does. Safe. -/
  | notModelled (mnemonic : String)
  deriving DecidableEq, Repr

/-- The machine right after reset (R230). `node`, `len` and `code`, for which the spec gives no value, are zero here:
DESIGN CHOICE, log entry 3. The streams are empty: DEDUCED, log entry 5. The model's own fields: log entries 1, 2, 4, 6. -/
def State.reset : State where
  freq := Vector.replicate 256 0
  node := Vector.replicate 511 { kind := .leaf, freq := 0, left := 0, right := 0 }
  len := Vector.replicate 256 0
  code := Vector.replicate 256 0
  treeValid := false
  tableValid := false
  encState := .idle
  sentInData := false
  decState := .idle
  decCur := Config.root
  err := false
  errCode := 0
  errOpc := 0
  encOut := []
  decOut := []
  port := []
  responses := []
  encRoom := none
  decRoom := none
  draws := 0

end Sys2Proof.Machine
end

