-- ==== Sys2Proof/Machine/Operands.lean ====
section
/-! DEFINITION. The operand forms (R70, R74, R80) and the packing of values into words (R7, R128, R181). -/

namespace Sys2Proof.Machine

/-- The table index a symbol names: every `SYM` value is one of 256 entries (R50). -/
def symIndex (sym : Byte) : Fin 256 := sym.toFin

/-- The node index an `IDX` operand names; none where it is out of range (R74). -/
def nodeIndex? (idx : BitVec 16) : Option NodeIndex :=
  if h : idx.toNat < 511 then some ⟨idx.toNat, h⟩ else none

/-- The window an `IDX` operand names, 0..7; none where it is out of range (R74). -/
def window? (idx : BitVec 16) : Option (Fin 8) :=
  if h : idx.toNat < 8 then some ⟨idx.toNat, h⟩ else none

/-- The bit a character stands for: `CH0` is 0, `CH1` is 1, any other character is no bit-symbol (R181). -/
def bitOfChar? (ch : Byte) : Option Bool :=
  if ch = Config.ch0 then some false else if ch = Config.ch1 then some true else none

/-- The character that renders a code bit (R161). -/
def charOfBit (b : Bool) : Byte := if b then Config.ch1 else Config.ch0

/-- A node index as the 9 bits that carry it (R22). -/
def nodeBits (i : NodeIndex) : BitVec 9 := BitVec.ofNat 9 i.val

/-- The 1-bit code of a node kind: LEAF 0, COMPOUND 1 (R23). -/
def kindBit : NodeKind → BitVec 1
  | .leaf => 0
  | .compound => 1

/-- The data word of a node record (R128): [39:0] freq, [48:40] left, [57:49] right, [58] kind, [63:59] zero. -/
def packNode (n : Node) : Word :=
  place n.freq 0 ||| place (nodeBits n.left) 40 ||| place (nodeBits n.right) 49 ||| place (kindBit n.kind) 58

/-- The data word of a `DEC_CHAR` that reached a compound (R181): only CUR. -/
def packStep (cur : NodeIndex) : Word := place (nodeBits cur) 16

/-- The data word of a `DEC_CHAR` that reached a leaf (R181): CUR is the root, SYMBOL the leaf, then DONE and LEAF. -/
def packLeaf (leaf : NodeIndex) (done : Bool) : Word :=
  place (nodeBits Config.root) 16 ||| place (nodeBits leaf) 8 ||| (if done then 0b11 else 0b01)

end Sys2Proof.Machine
end

