-- ==== Sys2Proof/Machine/Flags.lean ====
section
/-! DEFINITION. The codes of the status fields and the status word (R33, R102), and the result codes' bytes (R200). -/

namespace Sys2Proof.Machine

/-- The byte of a result code (R200). -/
def ResultCode.toByte : ResultCode → Byte
  | .ok              => 0
  | .illegalCmd      => 1
  | .badOperand      => 2
  | .badState        => 3
  | .zeroFreq        => 4
  | .malformedSymbol => 5
  | .malformedEos    => 6

/-- The bit of `ENC_STATE` (R27). -/
def EncState.toBit : EncState → BitVec 1
  | .idle   => 0
  | .active => 1

/-- The two bits of `DEC_STATE` (R29). -/
def DecState.toBits : DecState → BitVec 2
  | .idle   => 0
  | .active => 1
  | .done   => 2

/-- A flag as one bit. -/
def flagBit (b : Bool) : BitVec 1 := BitVec.ofBool b

/-- The status word (R33, R102): the fields from bit 0 up, bits [7] and [63:33] zero. -/
def State.statusWord (s : State) : Word :=
  place (flagBit s.treeValid) 0 ||| place (flagBit s.tableValid) 1 ||| place s.encState.toBit 2
    ||| place s.decState.toBits 3 ||| place (flagBit s.sentInData) 5 ||| place (flagBit s.err) 6
    ||| place s.errCode 8 ||| place s.errOpc 16 ||| place (nodeBits s.decCur) 24

end Sys2Proof.Machine
end

