-- ==== Sys2Proof/Machine/Ops.lean ====
section
/-! DEFINITION. The operations the commands share: table entries, responses, the error entry (R205), the output
streams (R32, R235), reset (R230) and the free values it draws. -/

namespace Sys2Proof.Machine

/-- The three outcomes of a command of this machine. -/
abbrev Result := Host.Outcome State Fault Refusal

/-! ## Table entries (R9, R50) -/

/-- `FREQ[SYM]`. -/
def State.readFreq (s : State) (sym : Byte) : Freq := s.freq[symIndex sym]

/-- `FREQ[SYM] <- f`. -/
def State.writeFreq (s : State) (sym : Byte) (f : Freq) : State :=
  { s with freq := s.freq.set (symIndex sym) f }

/-- `NODE[i]`. -/
def State.readNode (s : State) (i : NodeIndex) : Node := s.node[i]

/-- `LEN[SYM]`. -/
def State.readLen (s : State) (sym : Byte) : CodeLen := s.len[symIndex sym]

/-- `CODE[SYM]`. -/
def State.readCode (s : State) (sym : Byte) : CodeBits := s.code[symIndex sym]

/-! ## Responses and the error entry (R71, R205) -/

/-- One more response returned to the host (R71). -/
def State.reply (s : State) (rc : ResultCode) (data : Word) : State :=
  { s with responses := s.responses ++ [{ rc := rc, data := data }] }

/-- `respond(d)`: the command ends with OK and the data word `d` (R9). -/
def State.respond (s : State) (d : Word) : State := s.reply .ok d

/-- The error capture (R205): the first error since the last clear is kept, a later one overwrites nothing. -/
def State.capture (s : State) (rc : ResultCode) (opc : Byte) : State :=
  if s.err then s else { s with err := true, errCode := rc.toByte, errOpc := opc }

/-- `ErrorEntry(rc)` (R205): capture, then the response `{ RC = rc, DATA = 0 }`. -/
def State.errorEntry (s : State) (rc : ResultCode) (opc : Byte) : State := (s.capture rc opc).reply rc 0

/-- `raise <RC>` in the pseudocode of a command (R9). The block has no return from an error: the next command is taken
as usual, and only `clearCapture` and a reset clear the capture (R205, R207). -/
def State.raise (s : State) (rc : ResultCode) (o : Opcode) : Result := .next (s.errorEntry rc o.toByte)

/-- `ERR <- 0; ERR_CODE <- 0; ERR_OPC <- 0` (R103). -/
def State.clearCapture (s : State) : State := { s with err := false, errCode := 0, errOpc := 0 }

/-! ## Output streams (R32, R235). The room is the model's own, log entry 6. -/

/-- Does a port with this room accept `n` more bytes? A stream the host consumes always does, sooner or later. -/
def roomFor (room : Option Nat) (n : Nat) : Bool :=
  match room with
  | none => true
  | some k => decide (n ≤ k)

/-- The room left after `n` bytes. -/
def roomAfter (room : Option Nat) (n : Nat) : Option Nat := room.map fun k => k - n

/-- `emit_enc` of each character in order, all of them or, where the port never accepts them, none (R56, R235). -/
def State.emitEnc? (s : State) (cs : List Byte) : Option State :=
  if roomFor s.encRoom cs.length then
    some { s with encOut := s.encOut ++ cs, encRoom := roomAfter s.encRoom cs.length }
  else none

/-- `emit_dec` of one byte. -/
def State.emitDec? (s : State) (b : Byte) : Option State :=
  if roomFor s.decRoom 1 then
    some { s with decOut := s.decOut ++ [b], decRoom := roomAfter s.decRoom 1 }
  else none

/-! ## Reset (R230) -/

/-- The reset state of R230 for every element of the block; `NODE`, `LEN` and `CODE` become unspecified: free values
of this draw (log entry 4). The streams, and the host's side of the ports, are not affected. -/
def State.applyReset (s : State) : State :=
  { s with
    freq := Vector.replicate 256 0
    node := Vector.ofFn fun i => Config.freeNode s.draws i.val
    len := Vector.ofFn fun i => Config.freeLen s.draws i.val
    code := Vector.ofFn fun i => Config.freeCode s.draws i.val
    treeValid := false
    tableValid := false
    encState := .idle
    sentInData := false
    decState := .idle
    decCur := Config.root
    err := false
    errCode := 0
    errOpc := 0
    draws := s.draws + 1 }

end Sys2Proof.Machine
end

