-- ==== Sys2Proof/Machine/CodeTable.lean ====
section
/-! DEFINITION. The code table commands (spec/43_code_table.md). -/

namespace Sys2Proof.Machine

/-! ## The walk of R140 -/

/-- The code store a walk fills: `LEN` and `CODE`. -/
structure CodeStore where
  len  : Vector CodeLen 256
  code : Vector CodeBits 256
  deriving DecidableEq, Repr

/-- A path as the stored bits: bit `i` is `path(i)` for `i` below the path's length, 0 above (R140, R25). -/
def pathBits (path : List Bool) : CodeBits := BitVec.ofFnLE fun i : Fin 255 => path.getD i.val false

/-- `LEN[n] <- depth; CODE[n] <- path` (R140). A leaf at a compound's index is in no built tree: log entry 9. -/
def CodeStore.record (t : CodeStore) (n : NodeIndex) (path : List Bool) (depth : Nat) : CodeStore :=
  if h : n.val < 256 then
    { len := t.len.set n.val (BitVec.ofNat 8 depth), code := t.code.set n.val (pathBits path) }
  else t

/-- `Walk(n, path, depth)` (R140): left subtree before right subtree. `fuel` bounds the depth; a built tree has no path
longer than 255 edges (R129), so the 511 that `buildStore` gives are never used up: log entry 9. -/
def walk (node : Vector Node 511) : Nat → NodeIndex → List Bool → Nat → CodeStore → CodeStore
  | 0, _, _, _, t => t
  | fuel + 1, n, path, depth, t =>
    match node[n].kind with
    | .leaf => t.record n path depth
    | .compound =>
      walk node fuel node[n].right (path ++ [true]) (depth + 1)
        (walk node fuel node[n].left (path ++ [false]) (depth + 1) t)

/-- `Walk(510, [], 0)` over a code store that holds `prior`. -/
def buildStore (node : Vector Node 511) (prior : CodeStore) : CodeStore := walk node 511 Config.root [] 0 prior

/-- The longest code's length (R140). -/
def maxLen (len : Vector CodeLen 256) : Nat := (len.toList.map BitVec.toNat).foldl Nat.max 0

/-- The shortest code's length (R140). -/
def minLen (len : Vector CodeLen 256) : Nat := (len.toList.map BitVec.toNat).foldl Nat.min 255

/-- The data word of `BUILD_TABLE` (R140): [7:0] the shortest length, [15:8] the longest. -/
def packMinMax (len : Vector CodeLen 256) : Word :=
  place (BitVec.ofNat 8 (minLen len)) 0 ||| place (BitVec.ofNat 8 (maxLen len)) 8

/-! ## The commands -/

/-- `BUILD_TABLE` (R140). -/
def execBuildTable (s : State) : Result :=
  if !s.treeValid || s.tableValid then s.raise .badState .buildTable
  else
    let t := buildStore s.node { len := s.len, code := s.code }
    .next ({ s with len := t.len, code := t.code, tableValid := true }.respond (packMinMax t.len))

/-- `CODE_LEN_READ` (R141). -/
def execCodeLenRead (sym : Byte) (s : State) : Result :=
  if s.tableValid then .next (s.respond ((s.readLen sym).setWidth 64))
  else s.raise .badState .codeLenRead

/-- The 32 bits of window `w` of a code (R143): bit `j` is code element `32w + j` where that is below the length, else 0. -/
def codeWindow (len : CodeLen) (code : CodeBits) (w : Fin 8) : BitVec 32 :=
  BitVec.ofFnLE fun j : Fin 32 => decide (32 * w.val + j.val < len.toNat) && code.getLsbD (32 * w.val + j.val)

/-- `CODE_BITS_READ` (R143). -/
def execCodeBitsRead (sym : Byte) (idx : BitVec 16) (s : State) : Result :=
  match window? idx with
  | none => s.raise .badOperand .codeBitsRead
  | some w =>
    if s.tableValid then .next (s.respond ((codeWindow (s.readLen sym) (s.readCode sym) w).setWidth 64))
    else s.raise .badState .codeBitsRead

end Sys2Proof.Machine
end

