-- ==== Sys2Proof/Machine/Control.lean ====
section
/-! DEFINITION. The control commands (spec/40_control.md). -/

namespace Sys2Proof.Machine

/-- `NOP` (R100). -/
def execNop (s : State) : Result := .next (s.respond 0)

/-- `SOFT_RESET` (R101). -/
def execSoftReset (s : State) : Result := .next (s.applyReset.respond 0)

/-- `GET_STATUS` (R102). -/
def execGetStatus (s : State) : Result := .next (s.respond s.statusWord)

/-- `CLEAR_ERR` (R103). -/
def execClearErr (s : State) : Result := .next (s.clearCapture.respond 0)

end Sys2Proof.Machine
end

