-- ==== Sys2Proof/Machine/Decoder.lean ====
section
/-! DEFINITION. The decoder commands (spec/45_decoder.md). -/

namespace Sys2Proof.Machine

/-- `DEC_START` (R180). -/
def execDecStart (s : State) : Result :=
  if !s.treeValid || s.decState == .active then s.raise .badState .decStart
  else .next ({ s with decState := .active, decCur := Config.root }.respond 0)

/-- The abort of a decode operation (R181, R182): IDLE, at the root. -/
def State.abortDecode (s : State) : State := { s with decState := .idle, decCur := Config.root }

/-- The child of the current node that a bit selects: 0 left, 1 right (R181). -/
def State.decChild (s : State) (b : Bool) : NodeIndex :=
  if b then (s.readNode s.decCur).right else (s.readNode s.decCur).left

/-- The sentinel's node index (R22, R181). -/
def sentinelNode : NodeIndex := Fin.ofNat 511 Config.sentinel.toNat

/-- The walk's arrival at node `n` (R181): a compound becomes the current node; a leaf is the decoded symbol, ends the
cycle at the root, and is emitted unless it is the sentinel, which ends the operation. -/
def State.decArrive (s : State) (n : NodeIndex) : Result :=
  match (s.readNode n).kind with
  | .compound => .next ({ s with decCur := n }.respond (packStep n))
  | .leaf =>
    if n = sentinelNode then
      .next ({ s with decCur := Config.root, decState := .done }.respond (packLeaf n true))
    else
      match s.emitDec? (BitVec.ofNat 8 n.val) with
      | none => .fault .outputHang
      | some t => .next ({ t with decCur := Config.root }.respond (packLeaf n false))

/-- `DEC_CHAR` (R181). -/
def execDecChar (ch : Byte) (s : State) : Result :=
  if s.decState != .active then s.raise .badState .decChar
  else
    match bitOfChar? ch with
    | none => s.abortDecode.raise .malformedSymbol .decChar
    | some b => s.decArrive (s.decChild b)

/-- `DEC_EOS` (R182). -/
def execDecEos (s : State) : Result :=
  match s.decState with
  | .idle => s.raise .badState .decEos
  | .active => s.abortDecode.raise .malformedEos .decEos
  | .done => .next ({ s with decState := .idle }.respond 0)

end Sys2Proof.Machine
end

