-- ==== Sys2Proof/Machine/Encoder.lean ====
section
/-! DEFINITION. The encoder commands (spec/44_encoder.md). -/

namespace Sys2Proof.Machine

/-- The characters of a symbol's code in the store, root edge first (R161). -/
def State.codeChars (s : State) (sym : Byte) : List Byte :=
  (List.range (s.readLen sym).toNat).map fun i => charOfBit ((s.readCode sym).getLsbD i)

/-- `ENC_START` (R160). -/
def execEncStart (s : State) : Result :=
  if !s.tableValid || s.encState == .active then s.raise .badState .encStart
  else .next ({ s with encState := .active, sentInData := false }.respond 0)

/-- `ENC_SYM` (R161). -/
def execEncSym (sym : Byte) (s : State) : Result :=
  if s.encState != .active then s.raise .badState .encSym
  else
    match s.emitEnc? (s.codeChars sym) with
    | none => .fault .outputHang
    | some t =>
      .next ({ t with sentInData := t.sentInData || sym == Config.sentinel }.respond ((s.readLen sym).setWidth 64))

/-- `ENC_END` (R162). -/
def execEncEnd (s : State) : Result :=
  if s.encState != .active then s.raise .badState .encEnd
  else
    match s.emitEnc? (s.codeChars Config.sentinel) with
    | none => .fault .outputHang
    | some t => .next ({ t with encState := .idle }.respond ((s.readLen Config.sentinel).setWidth 64))

end Sys2Proof.Machine
end

