-- ==== Sys2Proof/Machine/Frequency.lean ====
section
/-! DEFINITION. The frequency table commands (spec/41_frequency.md). -/

namespace Sys2Proof.Machine

/-- `FREQ_WRITE` (R110): the table is frozen once the tree exists. -/
def execFreqWrite (sym : Byte) (arg : Freq) (s : State) : Result :=
  if s.treeValid then s.raise .badState .freqWrite
  else .next ((s.writeFreq sym arg).respond 0)

/-- `FREQ_READ` (R111). -/
def execFreqRead (sym : Byte) (s : State) : Result := .next (s.respond ((s.readFreq sym).setWidth 64))

end Sys2Proof.Machine
end

