-- ==== Sys2Proof/Machine/TreeBuilder.lean ====
section
/-! DEFINITION. The tree builder commands (spec/42_tree_builder.md). -/

namespace Sys2Proof.Machine

/-! ## The algorithm of R121 to R124 -/

/-- Does `i` come before `j` in the canonical order (R122): lower frequency, then lower sequence number? -/
def before (node : Vector Node 511) (i j : NodeIndex) : Bool :=
  decide (node[i].freq < node[j].freq) || (node[i].freq == node[j].freq && decide (i < j))

/-- The first node of a collection in the canonical order (R122). -/
def least? (node : Vector Node 511) : List NodeIndex → Option NodeIndex
  | [] => none
  | i :: rest =>
    match least? node rest with
    | none => some i
    | some j => if before node i j then some i else some j

/-- `Select(C)` (R122): the least node, and the collection without it. -/
def select? (node : Vector Node 511) (c : List NodeIndex) : Option (NodeIndex × List NodeIndex) :=
  (least? node c).map fun a => (a, c.erase a)

/-- What a build works on (R35, R121): the arena, the working collection (no repeats, no order), the merge counter. -/
structure Build where
  node    : Vector Node 511
  coll    : List NodeIndex
  nextSeq : Nat
  deriving DecidableEq, Repr

/-- The leaf record of a symbol with this frequency (R121, R80). -/
def leafNode (f : Freq) : Node := { kind := .leaf, freq := f.setWidth 40, left := 0, right := 0 }

/-- `Init()` (R121) over an arena that holds `prior`: the 256 leaf records, the rest as it was. -/
def initBuild (freq : Vector Freq 256) (prior : Vector Node 511) : Build :=
  { node := Vector.ofFn fun i : NodeIndex => if h : i.val < 256 then leafNode (freq[i.val]) else prior[i]
    coll := (List.finRange 256).map fun i => i.castLE (by decide)
    nextSeq := Config.seqFirstCompound }

/-- The compound record of a merge (R123): the sum of the children's frequencies, over 40 bits. -/
def compoundNode (node : Vector Node 511) (a b : NodeIndex) : Node :=
  { kind := .compound, freq := node[a].freq + node[b].freq, left := a, right := b }

/-- `Merge(m)` (R123). Fewer than two members, or no record left, happen in no build (R124): log entry 9. -/
def Build.merge (b : Build) : Build :=
  match select? b.node b.coll with
  | none => b
  | some (x, c1) =>
    match select? b.node c1 with
    | none => b
    | some (y, c2) =>
      if h : b.nextSeq < 511 then
        { node := b.node.set b.nextSeq (compoundNode b.node x y)
          coll := ⟨b.nextSeq, h⟩ :: c2
          nextSeq := b.nextSeq + 1 }
      else b

/-- The build after its first `k` merges. -/
def merges : Nat → Build → Build
  | 0, b => b
  | k + 1, b => (merges k b).merge

/-- The arena `BUILD_TREE` leaves, built over an arena that holds `prior` (R120). -/
def buildArena (freq : Vector Freq 256) (prior : Vector Node 511) : Vector Node 511 :=
  (merges Config.nMerge (initBuild freq prior)).node

/-- Some `FREQ` entry is 0 (R120). -/
def hasZeroFreq (freq : Vector Freq 256) : Bool := freq.toList.any fun f => f == 0

/-! ## The commands -/

/-- `BUILD_TREE` (R120). -/
def execBuildTree (s : State) : Result :=
  if s.treeValid then s.raise .badState .buildTree
  else if hasZeroFreq s.freq then s.raise .zeroFreq .buildTree
  else
    let arena := buildArena s.freq s.node
    .next ({ s with node := arena, treeValid := true }.respond (arena[Config.root].freq.setWidth 64))

/-- `NODE_READ` (R128). -/
def execNodeRead (idx : BitVec 16) (s : State) : Result :=
  match nodeIndex? idx with
  | none => s.raise .badOperand .nodeRead
  | some i =>
    if s.treeValid then .next (s.respond (packNode (s.readNode i)))
    else s.raise .badState .nodeRead

end Sys2Proof.Machine
end

