-- ==== Sys2Proof/Machine/Dispatch.lean ====
section
/-! DEFINITION. One arm per command (R72). -/

namespace Sys2Proof.Machine

def exec (i : Instr) (s : State) : Host.Outcome State Fault Refusal :=
  match i with
  | .nop => Sys2Proof.Machine.execNop s
  | .softReset => Sys2Proof.Machine.execSoftReset s
  | .getStatus => Sys2Proof.Machine.execGetStatus s
  | .clearErr => Sys2Proof.Machine.execClearErr s
  | .freqWrite sym arg => Sys2Proof.Machine.execFreqWrite sym arg s
  | .freqRead sym => Sys2Proof.Machine.execFreqRead sym s
  | .buildTree => Sys2Proof.Machine.execBuildTree s
  | .nodeRead idx => Sys2Proof.Machine.execNodeRead idx s
  | .buildTable => Sys2Proof.Machine.execBuildTable s
  | .codeLenRead sym => Sys2Proof.Machine.execCodeLenRead sym s
  | .codeBitsRead sym idx => Sys2Proof.Machine.execCodeBitsRead sym idx s
  | .encStart => Sys2Proof.Machine.execEncStart s
  | .encSym sym => Sys2Proof.Machine.execEncSym sym s
  | .encEnd => Sys2Proof.Machine.execEncEnd s
  | .decStart => Sys2Proof.Machine.execDecStart s
  | .decChar ch => Sys2Proof.Machine.execDecChar ch s
  | .decEos => Sys2Proof.Machine.execDecEos s

end Sys2Proof.Machine
end

