-- ==== Sys2Proof/Machine/Port.lean ====
section
/-! DEFINITION. The command cycle (R75) and the host's events at the block's ports (R58, R231, R235). -/

namespace Sys2Proof.Machine

/-- `Perform(w)` (R75): a word that is no command raises `ILLEGAL_CMD` with its own opcode byte (R73, R205). -/
def perform (w : Word) (s : State) : Result :=
  match decode w with
  | .reject _ => .next (s.errorEntry .illegalCmd (opcField w))
  | .accept i => exec i s

/-- The state of a completed outcome; `s` where the machine stopped. -/
def stateOr (s : State) : Result → State
  | .next t => t
  | .fault _ => s
  | .refused _ => s

/-- The first bytes of a stream that a port with this room still accepts. -/
def withinRoom (room : Option Nat) (bs : List Byte) : List Byte :=
  match room with
  | none => bs
  | some k => bs.take k

/-- A command cut short by hardware reset (R231, U11): no response, a free number of the bytes the command would have
emitted is delivered, no more than the port accepts, and the block is in the reset state. Log entry 7. -/
def State.cutByReset (s : State) (w : Word) : State :=
  let t := stateOr s (perform w { s with encRoom := none, decRoom := none })
  let enc := withinRoom s.encRoom ((t.encOut.drop s.encOut.length).take (Config.freeCutEnc s.draws))
  let dec := withinRoom s.decRoom ((t.decOut.drop s.decOut.length).take (Config.freeCutDec s.draws))
  { s with
    encOut := s.encOut ++ enc
    decOut := s.decOut ++ dec
    encRoom := roomAfter s.encRoom enc.length
    decRoom := roomAfter s.decRoom dec.length }.applyReset

/-- The room left in a port when the host ceases to consume its stream: a free value, at most `OUT_CAPACITY`. A host
that has ceased before leaves the room as it is. Log entry 6. -/
def roomAtStop (room : Option Nat) (draw : Nat) : Option Nat :=
  match room with
  | none => some (min (Config.freeRoom draw) Config.outCapacity)
  | some k => some k

/-- The host ceases to consume a stream (R235). -/
def State.stopConsuming (s : State) (st : Stream) : State :=
  match st with
  | .enc => { s with encRoom := roomAtStop s.encRoom s.draws, draws := s.draws + 1 }
  | .dec => { s with decRoom := roomAtStop s.decRoom s.draws, draws := s.draws + 1 }

/-- One host event. -/
def handle (e : HostEvent) (s : State) : Result :=
  match e with
  | .command w => perform w s
  | .hardReset => .next s.applyReset
  | .cutCommand w => .next (s.cutByReset w)
  | .stopConsuming st => .next (s.stopConsuming st)

/-- The next host event, taken from the port; with none pending the block waits and keeps all state (R214, R230). -/
def takeEvent (s : State) : Result :=
  match s.port with
  | [] => .next s
  | e :: rest => handle e { s with port := rest }

/-- `s` with this command word as the host's next event; the events pending before stay behind it. -/
def State.issue (s : State) (w : Word) : State := { s with port := .command w :: s.port }

end Sys2Proof.Machine
end

