-- ==== Sys2Proof/Machine/Step.lean ====
section
/-! DEFINITION. The step of the machine: one host event. -/

namespace Sys2Proof.Machine

/-- One step: the next host event (R58). -/
def step : State → Host.Outcome State Fault Refusal := takeEvent

/-- `s` with the command word that spec/opcode_table.json numbers `w` as the host's next event (log entry 1). -/
def State.withFetchWord (s : State) (nbits w : Nat) : State := s.issue (tableWord nbits w)

end Sys2Proof.Machine
end

