-- ==== Sys2Proof/Machine/Assembler.lean ====
section
/-! DEFINITION. The assembler syntax of R78, one line to one command. Host-side: the step does not use it. Where a
space may stand, letter case, and what a line without a command gives are the model's choice: log entry 15. -/

namespace Sys2Proof.Machine

/-- The mnemonic of an opcode (R72). -/
def mnemonic : Opcode → String
  | .nop          => "NOP"
  | .softReset    => "SOFT_RESET"
  | .getStatus    => "GET_STATUS"
  | .clearErr     => "CLEAR_ERR"
  | .freqWrite    => "FREQ_WRITE"
  | .freqRead     => "FREQ_READ"
  | .buildTree    => "BUILD_TREE"
  | .nodeRead     => "NODE_READ"
  | .buildTable   => "BUILD_TABLE"
  | .codeLenRead  => "CODE_LEN_READ"
  | .codeBitsRead => "CODE_BITS_READ"
  | .encStart     => "ENC_START"
  | .encSym       => "ENC_SYM"
  | .encEnd       => "ENC_END"
  | .decStart     => "DEC_START"
  | .decChar      => "DEC_CHAR"
  | .decEos       => "DEC_EOS"

/-- The value of a digit in base 16, its letters in either case (DESIGN CHOICE, log entry 15); none for another
character. -/
def digit? (c : Char) : Option Nat :=
  let n := c.toNat
  if 48 ≤ n ∧ n ≤ 57 then some (n - 48)
  else if 65 ≤ n ∧ n ≤ 70 then some (n - 55)
  else if 97 ≤ n ∧ n ≤ 102 then some (n - 87)
  else none

/-- The value of a run of digits in a base, continuing from `acc`. -/
def digits? (base : Nat) : Nat → List Char → Option Nat
  | acc, [] => some acc
  | acc, c :: rest =>
    match digit? c with
    | none => none
    | some d => if d < base then digits? base (base * acc + d) rest else none

/-- A number, decimal or `0x` hexadecimal (R78). A prefix `0X` is refused: DESIGN CHOICE, log entry 15. -/
def number? : List Char → Option Nat
  | [] => none
  | '0' :: 'x' :: c :: rest => digits? 16 0 (c :: rest)
  | c :: rest => digits? 10 0 (c :: rest)

/-- A character operand of `DEC_CHAR` (R78): a number, or the literal 0 or 1 in single quotes. -/
def charOperand? : List Char → Option Nat
  | ['\'', '0', '\''] => some 0x30
  | ['\'', '1', '\''] => some 0x31
  | cs => number? cs

/-- Without the spaces at both ends. -/
def trimSpaces (cs : List Char) : List Char :=
  ((cs.dropWhile Char.isWhitespace).reverse.dropWhile Char.isWhitespace).reverse

/-- The parts between commas. -/
def splitCommas : List Char → List (List Char)
  | [] => [[]]
  | ',' :: rest => [] :: splitCommas rest
  | c :: rest =>
    match splitCommas rest with
    | [] => [[c]]
    | p :: ps => (c :: p) :: ps

/-- The operand texts after a mnemonic, none for an empty rest of the line. -/
def operandTexts (cs : List Char) : List (List Char) :=
  match trimSpaces cs with
  | [] => []
  | c :: rest => (splitCommas (c :: rest)).map trimSpaces

/-- A value for a field of `w` bits; none where it does not fit (R78). -/
def fit? (w : Nat) (v : Nat) : Option (BitVec w) := if v < 2 ^ w then some (BitVec.ofNat w v) else none

/-- The values for the fields an opcode uses, in the order `SYM`, `IDX`, `ARG`; exactly as many as it uses (R78). -/
def assembleValues? (o : Opcode) (vs : List Nat) : Option Instr :=
  match o.usesSym, o.usesIdx, o.usesArg, vs with
  | false, false, false, [] => some (o.build 0 0 0)
  | true, false, false, [s] => (fit? 8 s).map fun sym => o.build sym 0 0
  | false, true, false, [i] => (fit? 16 i).map fun idx => o.build 0 idx 0
  | true, true, false, [s, i] => (fit? 8 s).bind fun sym => (fit? 16 i).map fun idx => o.build sym idx 0
  | true, false, true, [s, f] => (fit? 8 s).bind fun sym => (fit? 32 f).map fun arg => o.build sym 0 arg
  | _, _, _, _ => none

/-- Every text read as a number; `DEC_CHAR` also reads character literals (R78). -/
def operandValues? (o : Opcode) : List (List Char) → Option (List Nat)
  | [] => some []
  | t :: ts =>
    ((if o = .decChar then charOperand? t else number? t).bind fun v => (operandValues? o ts).map fun vs => v :: vs)

/-- One line of assembler text to its command (R78): comment cut, mnemonic, operands. A mnemonic is read in R72's
capitals only, and a line that is blank or holds only a comment has no command, so it answers none, as a refused line
does: DESIGN CHOICE, log entry 15. -/
def assemble? (line : String) : Option Instr :=
  let text := trimSpaces (line.toList.takeWhile fun c => c != ';')
  let name := text.takeWhile fun c => !c.isWhitespace
  match Opcode.all.find? fun o => (mnemonic o).toList == name with
  | none => none
  | some o => (operandValues? o (operandTexts (text.drop name.length))).bind fun vs => assembleValues? o vs

end Sys2Proof.Machine
end

