-- ==== Sys2Proof/Machine/HostSide.lean ====
section
/-! DEFINITION. What the spec defines of the host's side: the reference profiler (R113), the pseudo-instructions (R79),
and the observation of a run (R237). None of it is the block's behaviour; the step does not use it. -/

namespace Sys2Proof.Machine

/-! ## The reference profiler (R113) -/

/-- How often symbol `sym` occurs in `input`. -/
def occurrences (input : List Byte) (sym : Byte) : Nat := input.count sym

/-- `profile(S)` (R113): the counts, smoothed to at least 1. -/
def profile (input : List Byte) (sym : Byte) : Nat := max (occurrences input sym) 1

/-- Can a host load `profile(S)` (R113)? Every count fits a `FREQ` entry. -/
def loadable (input : List Byte) : Prop := ∀ sym : Byte, occurrences input sym ≤ 0xFFFFFFFF

/-! ## Sequences of commands -/

/-- The commands in order, each after the one before has answered (R58). -/
def runInstrs : List Instr → State → Result
  | [], s => .next s
  | i :: rest, s =>
    match exec i s with
    | .next t => runInstrs rest t
    | .fault e => .fault e
    | .refused e => .refused e

/-- Every symbol, in increasing order. -/
def allSymbols : List Byte := (List.range 256).map fun n => BitVec.ofNat 8 n

/-- `LOAD_FREQS f0, ..., f255` (R79). -/
def loadFreqs (f : Byte → Freq) : List Instr := allSymbols.map fun s => .freqWrite s (f s)

/-- `BUILD` (R79). -/
def build : List Instr := [.buildTree, .buildTable]

/-- `ENCODE b1, ..., bn` (R79). -/
def encodeAll (bs : List Byte) : List Instr := .encStart :: bs.map .encSym ++ [.encEnd]

/-- `READ_CODE s` (R79), where `CODE_LEN_READ` answers `len`: the windows 0 .. floor((len-1)/32). A `CODE_LEN_READ` that
fails answers DATA 0, and for a `len` of 0 no window is read: DESIGN CHOICE, log entry 15. -/
def readCodeCmds (sym : Byte) (len : Nat) : List Instr :=
  .codeLenRead sym :: (List.range ((len + 31) / 32)).map fun w => .codeBitsRead sym (BitVec.ofNat 16 w)

/-- The last response returned. -/
def State.lastResponse? (s : State) : Option Response := s.responses.getLast?

/-- Did the last command fail (`RC` != 0)? -/
def State.lastFailed (s : State) : Bool :=
  match s.lastResponse? with
  | some r => r.rc != .ok
  | none => false

/-- Did the last command answer with DONE (`DATA[1]`)? -/
def State.lastDone (s : State) : Bool :=
  match s.lastResponse? with
  | some r => r.data.getLsbD 1
  | none => false

/-- The character part of `DECODE` (R79): characters until DONE, a failure, or no more of them; then `DEC_EOS` unless
a command failed. -/
def feedChars : List Byte → State → Result
  | [], s => exec .decEos s
  | c :: rest, s =>
    match exec (.decChar c) s with
    | .next t => if t.lastFailed then .next t else if t.lastDone then exec .decEos t else feedChars rest t
    | .fault e => .fault e
    | .refused e => .refused e

/-- `DECODE c1, ..., cn` (R79); nothing follows a `DEC_START` that failed: DESIGN CHOICE, log entry 15. -/
def decodeAll (cs : List Byte) (s : State) : Result :=
  match exec .decStart s with
  | .next t => if t.lastFailed then .next t else feedChars cs t
  | .fault e => .fault e
  | .refused e => .refused e

/-! ## The observation of a run (R237) -/

/-- What a run shows: the responses, the two streams and the final status word. -/
structure Observation where
  responses : List Response
  encOut    : List Byte
  decOut    : List Byte
  status    : Word
  deriving DecidableEq, Repr

/-- The observation at the end of a run. -/
def State.observation (s : State) : Observation :=
  { responses := s.responses, encOut := s.encOut, decOut := s.decOut, status := s.statusWord }

end Sys2Proof.Machine
end

