-- ==== Sys2Proof/Safety.lean ====
section
/-! DEFINITION. What the claims are stated in: the conditions of spec/60_exceptions.md R201, the stored codes as paths
(R8, R25), the invariant of R34, and the runs it is about. -/

namespace Sys2Proof.Machine

/-! ## Outcomes -/

/-- The result code of the response that the outcome added last; none where the machine stopped. -/
def resultCode? : Result → Option ResultCode
  | .next t => t.lastResponse?.map Response.rc
  | .fault _ => none
  | .refused _ => none

/-! ## R201: when a command is not allowed in the current state -/

/-- The table of R201, row by row; the commands of its last paragraph are allowed in every state. -/
def badStateWhen (s : State) : Instr → Prop
  | .freqWrite _ _    => s.treeValid = true
  | .buildTree        => s.treeValid = true
  | .nodeRead _       => s.treeValid = false
  | .buildTable       => s.treeValid = false ∨ s.tableValid = true
  | .codeLenRead _    => s.tableValid = false
  | .codeBitsRead _ _ => s.tableValid = false
  | .encStart         => s.tableValid = false ∨ s.encState = .active
  | .encSym _         => s.encState ≠ .active
  | .encEnd           => s.encState ≠ .active
  | .decStart         => s.treeValid = false ∨ s.decState = .active
  | .decChar _        => s.decState ≠ .active
  | .decEos           => s.decState = .idle
  | .nop | .softReset | .getStatus | .clearErr | .freqRead _ => False

/-- The operation error of a command whose other checks passed (R200, R203). -/
def operationError? (s : State) : Instr → Option ResultCode
  | .buildTree  => if ∃ sym : Byte, s.readFreq sym = 0 then some .zeroFreq else none
  | .decChar ch => if ch ≠ 0x30 ∧ ch ≠ 0x31 then some .malformedSymbol else none
  | .decEos     => if s.decState = .active then some .malformedEos else none
  | .nop | .softReset | .getStatus | .clearErr | .freqWrite _ _ | .freqRead _ | .nodeRead _ | .buildTable
  | .codeLenRead _ | .codeBitsRead _ _ | .encStart | .encSym _ | .encEnd | .decStart => none

/-! ## Codes and tree paths -/

/-- The stored code of a symbol as a path: element 0 is the edge leaving the root (R8, R25). -/
def State.codePath (s : State) (sym : Byte) : List Bool :=
  (List.range (s.readLen sym).toNat).map fun i => (s.readCode sym).getLsbD i

/-- The node a path leads to from `n`; a leaf is left by no edge (R140, R181). -/
def follow (node : Vector Node 511) : NodeIndex → List Bool → Option NodeIndex
  | n, [] => some n
  | n, b :: rest =>
    match node[n].kind with
    | .leaf => none
    | .compound => follow node (if b then node[n].right else node[n].left) rest

/-- The node index of a symbol's leaf (R22). -/
def leafIndex (sym : Byte) : NodeIndex := ⟨sym.toNat, Nat.lt_trans sym.isLt (by decide)⟩

/-! ## R34: the invariant of the reachable states -/

/-- R34, with what `TREE_VALID` and `TABLE_VALID` mean (R26) as its items 7 and 8. -/
structure Invariant (s : State) : Prop where
  /-- R34 item 1. -/
  table_needs_tree : s.tableValid = true → s.treeValid = true
  /-- R34 item 2. -/
  enc_needs_table : s.encState = .active → s.tableValid = true
  /-- R34 item 3. -/
  dec_needs_tree : s.decState ≠ .idle → s.treeValid = true
  /-- R34 item 4. -/
  dec_rests_at_root : s.decState ≠ .active → s.decCur = Config.root
  /-- R34 item 5. -/
  dec_at_compound : s.decState = .active → (s.readNode s.decCur).kind = .compound ∧ 256 ≤ s.decCur.val
  /-- R34 item 6, first half. -/
  no_err_no_code : s.err = false → s.errCode = 0 ∧ s.errOpc = 0
  /-- R34 item 6, second half. -/
  err_code_range : s.err = true → 1 ≤ s.errCode.toNat ∧ s.errCode.toNat ≤ 6
  /-- R34 item 7: the frequencies are at least 1. -/
  tree_freqs : s.treeValid = true → ∀ sym : Byte, 1 ≤ (s.readFreq sym).toNat
  /-- R26, R34 item 7: the arena holds the tree built from the current `FREQ`. -/
  tree_current : s.treeValid = true → ∃ prior, s.node = buildArena s.freq prior
  /-- R26: the code store holds the code table of that tree. -/
  table_current : s.tableValid = true →
    ∃ prior, s.len = (buildStore s.node prior).len ∧ s.code = (buildStore s.node prior).code

end Sys2Proof.Machine
end

