-- ==== Sys2Proof/Certificates/Slice0/Obligations.lean ====
section
/-! DEFINITION. The statements for the provers, from the numbered rules of spec/, and the few words they are stated in. -/

namespace Sys2Proof.Claims

open Sys2Proof.Machine

/-! ## The words of the statements -/

/-- `s` after a command that answered OK with the data word `d` and did nothing else (R71). -/
def afterOk (s : State) (d : Word) : State :=
  { s with responses := s.responses ++ [{ rc := .ok, data := d }] }

/-- `s` after the error entry of R205 for a command with this opcode byte: the first error is captured, a later one is
only reported, and nothing else changes. -/
def afterError (s : State) (rc : ResultCode) (opc : Byte) : State :=
  { s with
    err := true
    errCode := if s.err = true then s.errCode else rc.toByte
    errOpc := if s.err = true then s.errOpc else opc
    responses := s.responses ++ [{ rc := rc, data := 0 }] }

/-- `s` after the abort of a decode operation (R181, R182). -/
def aborted (s : State) : State := { s with decState := .idle, decCur := 510 }

/-- The command word of opcode byte `opc`, whatever its fields hold: where every field it does not use is zero it is
performed as the command `mk`, else it raises ILLEGAL_CMD (R72, R73). -/
def wordForm (opc : Byte) (usesSym usesIdx usesArg : Bool) (mk : Byte → BitVec 16 → Freq → Instr) : Prop :=
  ∀ (s : State) (sym : Byte) (idx : BitVec 16) (arg : Freq),
    ((usesSym = true ∨ sym = 0) ∧ (usesIdx = true ∨ idx = 0) ∧ (usesArg = true ∨ arg = 0) →
      perform (packFields opc sym idx arg) s = exec (mk sym idx arg) s) ∧
    (¬ ((usesSym = true ∨ sym = 0) ∧ (usesIdx = true ∨ idx = 0) ∧ (usesArg = true ∨ arg = 0)) →
      perform (packFields opc sym idx arg) s = .next (afterError s .illegalCmd opc))

/-- The rows of R72: opcode byte, and whether the command uses `SYM`, `IDX`, `ARG`. -/
def opcodeRows : List (Byte × Bool × Bool × Bool) :=
  [(0x00, false, false, false), (0x01, false, false, false), (0x02, false, false, false), (0x03, false, false, false),
   (0x10, true, false, true), (0x11, true, false, false), (0x20, false, false, false), (0x21, false, true, false),
   (0x30, false, false, false), (0x31, true, false, false), (0x32, true, true, false), (0x40, false, false, false),
   (0x41, true, false, false), (0x42, false, false, false), (0x50, false, false, false), (0x51, true, false, false),
   (0x52, false, false, false)]

/-- R73: the opcode is none of R72's, or a field that R72 marks `0` for it is not zero. -/
def illegalWord (w : Word) : Prop :=
  ¬ ∃ r ∈ opcodeRows, r.1 = w.extractLsb' 0 8 ∧ (r.2.1 = true ∨ w.extractLsb' 8 8 = 0) ∧
    (r.2.2.1 = true ∨ w.extractLsb' 16 16 = 0) ∧ (r.2.2.2 = true ∨ w.extractLsb' 32 32 = 0)

/-- The reset state of R230, element by element, where the rule gives a value. -/
def isReset (t : State) : Prop :=
  (∀ sym : Byte, t.readFreq sym = 0) ∧ t.treeValid = false ∧ t.tableValid = false ∧ t.encState = .idle ∧
    t.sentInData = false ∧ t.decState = .idle ∧ t.decCur = 510 ∧ t.err = false ∧ t.errCode = 0 ∧ t.errOpc = 0 ∧
    t.statusWord = 0x00000001FE000000

/-- Every `FREQ` entry is at least 1 (R112). -/
def smoothed (s : State) : Prop := ∀ sym : Byte, s.readFreq sym ≠ 0

/-- The host consumes both output streams (R235). -/
def drained (s : State) : Prop := s.encRoom = none ∧ s.decRoom = none

/-- The characters of a symbol's stored code: 0x30 for 0, 0x31 for 1, root edge first (R161). -/
def chars (s : State) (sym : Byte) : List Byte := (s.codePath sym).map fun b => if b = true then 0x31 else 0x30

/-- `c` is a compound of the arena with child `i` (R23). -/
def isChild (node : Vector Node 511) (c i : NodeIndex) : Prop :=
  node[c].kind = .compound ∧ (node[c].left = i ∨ node[c].right = i)

/-- `Walk(n, path, depth)` of R140, from one code store to the next: a leaf records its depth and its path, a compound
walks its left subtree and then its right one. -/
inductive Walks (node : Vector Node 511) : NodeIndex → List Bool → Nat → CodeStore → CodeStore → Prop where
  | leaf {n path depth st c} (h : n.val < 256) : node[n].kind = .leaf → depth ≤ 255 →
      (∀ i, c.getLsbD i = (decide (i < depth) && path.getD i false)) →
      Walks node n path depth st { len := st.len.set n.val (BitVec.ofNat 8 depth), code := st.code.set n.val c }
  | compound {n path depth st st1 st2} : node[n].kind = .compound →
      Walks node node[n].left (path ++ [false]) (depth + 1) st st1 →
      Walks node node[n].right (path ++ [true]) (depth + 1) st1 st2 → Walks node n path depth st st2

/-- The encoder's commands (R160 to R162). -/
def isEncoder : Instr → Bool
  | .encStart | .encSym _ | .encEnd => true
  | .nop | .softReset | .getStatus | .clearErr | .freqWrite _ _ | .freqRead _ | .buildTree | .nodeRead _ | .buildTable
  | .codeLenRead _ | .codeBitsRead _ _ | .decStart | .decChar _ | .decEos => false

/-- The decoder's commands (R180 to R182). -/
def isDecoder : Instr → Bool
  | .decStart | .decChar _ | .decEos => true
  | .nop | .softReset | .getStatus | .clearErr | .freqWrite _ _ | .freqRead _ | .buildTree | .nodeRead _ | .buildTable
  | .codeLenRead _ | .codeBitsRead _ _ | .encStart | .encSym _ | .encEnd => false

/-- The commands that read the arena or the code store: every one of them is refused while its table is not valid. -/
def readsTables : Instr → Bool
  | .nodeRead _ | .buildTable | .codeLenRead _ | .codeBitsRead _ _ | .encStart | .encSym _ | .encEnd
  | .decStart | .decChar _ => true
  | .nop | .softReset | .getStatus | .clearErr | .freqWrite _ _ | .freqRead _ | .buildTree | .decEos => false

/-- The reads of R57. -/
def isRead : Instr → Bool
  | .freqRead _ | .nodeRead _ | .codeLenRead _ | .codeBitsRead _ _ | .getStatus => true
  | .nop | .softReset | .clearErr | .freqWrite _ _ | .buildTree | .buildTable
  | .encStart | .encSym _ | .encEnd | .decStart | .decChar _ | .decEos => false

/-- The operand values of a command in the order `SYM`, `IDX`, `ARG` for the fields it uses (R78). -/
def operandValues : Instr → List Nat
  | .freqWrite sym arg => [sym.toNat, arg.toNat]
  | .freqRead sym => [sym.toNat]
  | .nodeRead idx => [idx.toNat]
  | .codeLenRead sym => [sym.toNat]
  | .codeBitsRead sym idx => [sym.toNat, idx.toNat]
  | .encSym sym => [sym.toNat]
  | .decChar ch => [ch.toNat]
  | .nop | .softReset | .getStatus | .clearErr | .buildTree | .buildTable | .encStart | .encEnd | .decStart | .decEos => []

/-- An outcome with the error capture of its state blanked. -/
def blankCapture : Result → Result
  | .next t => .next { t with err := false, errCode := 0, errOpc := 0 }
  | .fault e => .fault e
  | .refused e => .refused e

/-- What the encoder reads and writes (R165). -/
def sameEncoderSide (s s' : State) : Prop :=
  s.len = s'.len ∧ s.code = s'.code ∧ s.tableValid = s'.tableValid ∧ s.encState = s'.encState ∧
    s.sentInData = s'.sentInData ∧ s.encRoom = s'.encRoom

/-- What the decoder reads and writes (R165). -/
def sameDecoderSide (s s' : State) : Prop :=
  s.node = s'.node ∧ s.treeValid = s'.treeValid ∧ s.decState = s'.decState ∧ s.decCur = s'.decCur ∧
    s.decRoom = s'.decRoom

end Sys2Proof.Claims

open Sys2Proof Sys2Proof.Machine Sys2Proof.Claims

/-! ## Encoding (spec/30_encoding.md) -/

/-- Decoding the encoding of any command gives it back, with every operand at every value of its field (R70, R72, R80). -/
def Obligations.DecodeAfterEncode : Prop := ∀ i : Instr, decode (encode i) = .accept i

/-- A word that decodes to a command is that command's encoding: no word has two readings and no bit is dropped (R70, R73). -/
def Obligations.EncodeAfterDecode : Prop := ∀ (w : Word) (i : Instr), decode w = .accept i → encode i = w

/-- The match/mask table of R72 selects the same command as the decoder, for every word. -/
def Obligations.MaskedMatchSelectsTheCommand : Prop :=
  ∀ (w : Word) (o : Opcode), w &&& o.maskWord = o.matchWord ↔ ∃ i, decode w = .accept i ∧ i.opcode = o

/-- R73: a reserved opcode or a nonzero unused field raises ILLEGAL_CMD and changes nothing but the error capture; every
other word is a command. -/
def Obligations.IllegalWordsChangeNothingElse : Prop :=
  ∀ (s : State) (w : Word),
    (illegalWord w → perform w s = .next (afterError s .illegalCmd (w.extractLsb' 0 8))) ∧
    (¬ illegalWord w → ∃ i, decode w = .accept i ∧ perform w s = exec i s)

/-- The words that R78 writes out decode to the commands it names. A sanity statement. -/
def Obligations.WrittenOutWordsDecode : Prop :=
  decode 0x0000000300004110 = .accept (.freqWrite 65 3) ∧
  decode 0x0000000001FE0021 = .accept (.nodeRead 510) ∧
  decode 0x0000000000010432 = .accept (.codeBitsRead 4 1) ∧
  decode 0x0000000000004141 = .accept (.encSym 65) ∧
  decode 0x0000000000003151 = .accept (.decChar 0x31) ∧
  decode 0x0000000000000100 = .reject .unusedField ∧
  decode 0x0000000000000004 = .reject .reservedOpcode

/-- R52: byte `k` of a byte-serial transport carries bits [8k+7 : 8k], and the receiver takes the word back. -/
def Obligations.TransportIsLittleEndian : Prop :=
  ∀ w : Word,
    (transportBytes w).length = 8 ∧
    (∀ k, k < 8 → (transportBytes w)[k]? = some (w.extractLsb' (8 * k) 8)) ∧
    (∀ rest : List Byte, wordOfTransport? (transportBytes w ++ rest) = some (w, rest))

/-- R78: the assembler takes each value as it is written, refuses one that does not fit its field, and fills in none. -/
def Obligations.AssemblerKeepsEveryOperand : Prop :=
  ∀ (o : Opcode) (vs : List Nat) (i : Instr),
    assembleValues? o vs = some i ↔ i.opcode = o ∧ operandValues i = vs

/-! ## The command cycle (spec/20_memory.md, spec/30_encoding.md) -/

/-- A step takes the host's next command word and runs the command it decodes to, with the word gone from the port. The
port is the model's own (log entry 1). -/
def Obligations.StepPerformsTheIssuedCommand : Prop :=
  ∀ (s : State) (w : Word) (rest : List HostEvent) (i : Instr),
    s.port = .command w :: rest → decode w = .accept i → step s = exec i { s with port := rest }

/-- With no host event pending the block keeps all state. Model's choice, log entry 1, after R214 and R230. -/
def Obligations.IdleStepKeepsAllState : Prop := ∀ s : State, s.port = [] → step s = .next s

/-- R71: every command word gets one response, and DATA is 0 where RC is not 0. The host consumes its streams (R235). -/
def Obligations.EveryCommandAnswersOnce : Prop :=
  ∀ (s : State) (w : Word), drained s →
    ∃ t r, perform w s = .next t ∧ t.responses = s.responses ++ [r] ∧ (r.rc ≠ .ok → r.data = 0)

/-- R205: a failing command leaves exactly the error entry, after the abort of the decoder where it is MALFORMED_SYMBOL
or MALFORMED_EOS: first error kept, response with DATA 0, all else as it was. -/
def Obligations.FailureLeavesOnlyTheErrorEntry : Prop :=
  ∀ (s t : State) (w : Word) (r : Response), perform w s = .next t → t.responses = s.responses ++ [r] → r.rc ≠ .ok →
    t = afterError (if r.rc = .malformedSymbol ∨ r.rc = .malformedEos then aborted s else s) r.rc (w.extractLsb' 0 8)

/-- R201, R203: which result code a command word answers: by its form first, then by operand range, the state table, and
the command's own error. -/
def Obligations.ResultCodeFollowsThePriority : Prop :=
  ∀ (s t : State) (w : Word), perform w s = .next t →
    ∃ r, t.responses = s.responses ++ [r] ∧ (illegalWord w → r.rc = .illegalCmd) ∧
      ∀ i, decode w = .accept i →
        (i.wellFormed = false → r.rc = .badOperand) ∧
        (i.wellFormed = true → badStateWhen s i → r.rc = .badState) ∧
        (i.wellFormed = true → ¬ badStateWhen s i → ∀ e, operationError? s i = some e → r.rc = e) ∧
        (i.wellFormed = true → ¬ badStateWhen s i → operationError? s i = none → r.rc = .ok)

/-- R206: what a command does depends on the error capture in nothing but the capture itself and GET_STATUS's answer; a
failing command, an encoder command among them, leaves the encoder as it was. -/
def Obligations.ErrorCaptureNeverBlocks : Prop :=
  (∀ (s : State) (i : Instr) (e : Bool) (c o : Byte), i ≠ .getStatus →
    blankCapture (exec i { s with err := e, errCode := c, errOpc := o }) = blankCapture (exec i s)) ∧
  (∀ (s t : State) (w : Word) (r : Response), perform w s = .next t → t.responses = s.responses ++ [r] → r.rc ≠ .ok →
    sameEncoderSide s t ∧ t.encOut = s.encOut) ∧
  (∀ (s t : State) (i : Instr) (r : Response), isEncoder i = true → exec i s = .next t →
    t.responses = s.responses ++ [r] → r.rc = .ok ∨ r.rc = .badState)

/-- R207: the capture is cleared only by CLEAR_ERR, SOFT_RESET and hardware reset; until then it keeps the first error. -/
def Obligations.CaptureClearedOnlyByClearOrReset : Prop :=
  ∀ s t : State, step s = .next t → s.err = true →
    (t.err = true ∧ t.errCode = s.errCode ∧ t.errOpc = s.errOpc) ∨
    (t.err = false ∧ t.errCode = 0 ∧ t.errOpc = 0 ∧
      ∃ rest, s.port = .command 0x0000000000000003 :: rest ∨ s.port = .command 0x0000000000000001 :: rest ∨
        s.port = .hardReset :: rest ∨ ∃ w, s.port = .cutCommand w :: rest)

/-! ## Control and reset (spec/40_control.md, spec/70_reset_and_hazards.md) -/

/-- R100: NOP answers OK with DATA 0 and changes nothing; with any field nonzero it is ILLEGAL_CMD. -/
def Obligations.NopDoesNothing : Prop :=
  (∀ s : State, exec .nop s = .next (afterOk s 0)) ∧ wordForm 0x00 false false false (fun _ _ _ => .nop)

/-- R101: SOFT_RESET puts every element into its reset state, keeps both streams and answers OK. -/
def Obligations.SoftResetRestoresTheResetState : Prop :=
  (∀ s : State, ∃ t, exec .softReset s = .next t ∧ isReset t ∧ t.encOut = s.encOut ∧ t.decOut = s.decOut ∧
    t.responses = s.responses ++ [{ rc := .ok, data := 0 }]) ∧
  wordForm 0x01 false false false (fun _ _ _ => .softReset)

/-- R230: the table of reset values holds at reset, after hardware reset and after SOFT_RESET; a reset leaves the streams
as they are; and no command reads NODE, LEN or CODE before they are written again. -/
def Obligations.ResetTable : Prop :=
  isReset State.reset ∧
  (∀ (s : State) (rest : List HostEvent), s.port = .hardReset :: rest →
    ∃ t, step s = .next t ∧ isReset t ∧ t.encOut = s.encOut ∧ t.decOut = s.decOut) ∧
  (∀ s : State, ∃ t, exec .softReset s = .next t ∧ isReset t ∧ t.encOut = s.encOut ∧ t.decOut = s.decOut) ∧
  (∀ (t : State) (i : Instr), isReset t → i.wellFormed = true → readsTables i = true →
    exec i t = .next (afterError t .badState i.opcode.toByte))

/-- R102: GET_STATUS answers the status word, field by field in its bits, and changes nothing. -/
def Obligations.StatusWordLayout : Prop :=
  (∀ s : State, ∃ d : Word, exec .getStatus s = .next (afterOk s d) ∧
    d.getLsbD 0 = s.treeValid ∧ d.getLsbD 1 = s.tableValid ∧ (d.getLsbD 2 = true ↔ s.encState = .active) ∧
    d.extractLsb' 3 2 = (match s.decState with | .idle => 0 | .active => 1 | .done => 2) ∧
    d.getLsbD 5 = s.sentInData ∧ d.getLsbD 6 = s.err ∧ d.getLsbD 7 = false ∧
    d.extractLsb' 8 8 = s.errCode ∧ d.extractLsb' 16 8 = s.errOpc ∧ (d.extractLsb' 24 9).toNat = s.decCur.val ∧
    d.extractLsb' 33 31 = 0) ∧
  (∃ t, exec .getStatus State.reset = .next t ∧ t.responses = [{ rc := .ok, data := 0x00000001FE000000 }]) ∧
  (∃ t, runInstrs [.buildTree, .getStatus] State.reset = .next t ∧
    t.responses = [{ rc := .zeroFreq, data := 0 }, { rc := .ok, data := 0x00000001FE200440 }]) ∧
  wordForm 0x02 false false false (fun _ _ _ => .getStatus)

/-- R103: CLEAR_ERR clears the three capture fields and nothing else. -/
def Obligations.ClearErrClearsTheCapture : Prop :=
  (∀ s : State, exec .clearErr s = .next { afterOk s 0 with err := false, errCode := 0, errOpc := 0 }) ∧
  wordForm 0x03 false false false (fun _ _ _ => .clearErr)

/-- R231: hardware reset during a command leaves the reset state and no response; of the command's output some first
part is delivered and nothing else. The event and the free cut are the model's (log entries 1, 7), and that the
pending events and the earlier responses stay is DEDUCED: log entry 10. -/
def Obligations.HardwareResetCutsTheCommand : Prop :=
  ∀ (s : State) (w : Word) (rest : List HostEvent), s.port = .cutCommand w :: rest →
    ∃ t, step s = .next t ∧ isReset t ∧ t.responses = s.responses ∧ t.port = rest ∧
      s.encOut <+: t.encOut ∧ s.decOut <+: t.decOut ∧
      ∀ u, perform w { s with port := rest } = .next u → t.encOut <+: u.encOut ∧ t.decOut <+: u.decOut

/-- R235: when the host ceases to consume a stream, its port has at most OUT_CAPACITY bytes of room left, and nothing of
the block changes. The event is the model's (log entry 6). -/
def Obligations.HostStopsConsuming : Prop :=
  ∀ (s : State) (rest : List HostEvent),
    (s.port = .stopConsuming .enc :: rest → s.encRoom = none →
      ∃ k, k ≤ Config.outCapacity ∧
        step s = .next { s with port := rest, encRoom := some k, draws := s.draws + 1 }) ∧
    (s.port = .stopConsuming .dec :: rest → s.decRoom = none →
      ∃ k, k ≤ Config.outCapacity ∧
        step s = .next { s with port := rest, decRoom := some k, draws := s.draws + 1 })

/-! ## Frequency table (spec/41_frequency.md) -/

/-- R110: FREQ_WRITE stores ARG in FREQ[SYM] alone while no tree exists, and is BAD_STATE once one does. -/
def Obligations.FreqWriteStoresOneEntry : Prop :=
  (∀ (s : State) (sym : Byte) (f : Freq), s.treeValid = false →
    exec (.freqWrite sym f) s = .next { afterOk s 0 with freq := s.freq.set sym.toNat f sym.isLt } ∧
    ∀ other : Byte, ({ s with freq := s.freq.set sym.toNat f sym.isLt } : State).readFreq other =
      if other = sym then f else s.readFreq other) ∧
  (∀ (s : State) (sym : Byte) (f : Freq), s.treeValid = true →
    exec (.freqWrite sym f) s = .next (afterError s .badState 0x10)) ∧
  wordForm 0x10 true false true (fun sym _ arg => .freqWrite sym arg)

/-- R111: FREQ_READ answers the entry, zero-extended, in every state, and changes nothing. -/
def Obligations.FreqReadAnswersTheEntry : Prop :=
  (∀ (s : State) (sym : Byte),
    exec (.freqRead sym) s = .next (afterOk s ((s.freq[sym.toNat]'sym.isLt).setWidth 64))) ∧
  wordForm 0x11 true false false (fun sym _ _ => .freqRead sym)

/-- R112, R113: a loaded reference profile has every entry at least 1, equal to the count where the symbol occurs, and
BUILD_TREE accepts it. -/
def Obligations.ReferenceProfileIsAccepted : Prop :=
  ∀ (input : List Byte) (s : State), loadable input → s.treeValid = false →
    (∀ sym : Byte, (s.readFreq sym).toNat = profile input sym) →
    (∀ sym : Byte, 1 ≤ profile input sym ∧ (sym ∈ input → profile input sym = input.count sym) ∧
      (sym ∉ input → profile input sym = 1)) ∧
    ∃ t d, exec .buildTree s = .next t ∧ t.treeValid = true ∧ t.responses = s.responses ++ [{ rc := .ok, data := d }]

/-! ## Tree builder (spec/42_tree_builder.md) -/

/-- R120: BUILD_TREE initialises, merges 255 times, sets TREE_VALID and answers the root's frequency; with a tree it is
BAD_STATE, with a zero entry ZERO_FREQ, and then it writes nothing. -/
def Obligations.BuildTreeBuildsOrRefuses : Prop :=
  (∀ s : State, s.treeValid = true → exec .buildTree s = .next (afterError s .badState 0x20)) ∧
  (∀ s : State, s.treeValid = false → (∃ sym : Byte, s.readFreq sym = 0) →
    exec .buildTree s = .next (afterError s .zeroFreq 0x20)) ∧
  (∀ s : State, s.treeValid = false → smoothed s →
    let arena := (merges 255 (initBuild s.freq s.node)).node
    exec .buildTree s = .next { afterOk s (arena[510].freq.setWidth 64) with node := arena, treeValid := true }) ∧
  wordForm 0x20 false false false (fun _ _ _ => .buildTree)

/-- R121: a build starts from the 256 leaf records, the collection of all 256 leaves and the counter 256. -/
def Obligations.BuildStartsFromTheLeaves : Prop :=
  ∀ (freq : Vector Freq 256) (prior : Vector Node 511),
    (∀ sym : Byte, (initBuild freq prior).node[leafIndex sym] =
      { kind := .leaf, freq := (freq[sym.toNat]'sym.isLt).setWidth 40, left := 0, right := 0 }) ∧
    (initBuild freq prior).coll.Nodup ∧
    (∀ i : NodeIndex, i ∈ (initBuild freq prior).coll ↔ i.val < 256) ∧
    (initBuild freq prior).nextSeq = 256

/-- R122: a selection takes the one member of smallest frequency, the smaller index on ties, and leaves the others. -/
def Obligations.SelectionIsCanonical : Prop :=
  ∀ (node : Vector Node 511) (c : List NodeIndex), c ≠ [] → c.Nodup →
    ∃ a c', select? node c = some (a, c') ∧ a ∈ c ∧
      (∀ j ∈ c, j ≠ a → node[a].freq.toNat < node[j].freq.toNat ∨
        (node[a].freq.toNat = node[j].freq.toNat ∧ a.val < j.val)) ∧
      c'.Nodup ∧ ∀ j, j ∈ c' ↔ j ∈ c ∧ j ≠ a

/-- R123: a merge selects twice and makes the compound of the two at the counter's index; every other record, and every
other member, stays. -/
def Obligations.MergeMakesOneCompound : Prop :=
  ∀ (b : Build) (x y : NodeIndex) (c1 c2 : List NodeIndex) (h : b.nextSeq < 511),
    select? b.node b.coll = some (x, c1) → select? b.node c1 = some (y, c2) →
    b.merge.nextSeq = b.nextSeq + 1 ∧
    b.merge.node[b.nextSeq] =
      { kind := .compound, freq := b.node[x].freq + b.node[y].freq, left := x, right := y } ∧
    (∀ i : NodeIndex, i.val ≠ b.nextSeq → b.merge.node[i] = b.node[i]) ∧
    (∀ i : NodeIndex, i ∈ b.merge.coll ↔ i.val = b.nextSeq ∨ i ∈ c2)

/-- R124: before merge `m` the collection has 256 - m members, both selections of the merge succeed, and after 255 merges
node 510 alone is left. -/
def Obligations.MergesEndWithTheRoot : Prop :=
  ∀ (freq : Vector Freq 256) (prior : Vector Node 511),
    (∀ m, m ≤ 255 →
      (merges m (initBuild freq prior)).coll.length = 256 - m ∧ (merges m (initBuild freq prior)).coll.Nodup ∧
      (merges m (initBuild freq prior)).nextSeq = 256 + m) ∧
    (∀ m, m ≤ 254 → ∃ x c1 y c2,
      select? (merges m (initBuild freq prior)).node (merges m (initBuild freq prior)).coll = some (x, c1) ∧
      select? (merges m (initBuild freq prior)).node c1 = some (y, c2)) ∧
    (merges 255 (initBuild freq prior)).coll = [510]

/-- R126: the arena is a function of FREQ alone: not of what the arena held before, nor of the order of the writes, nor
of how often an entry was rewritten. -/
def Obligations.ArenaDependsOnFreqAlone : Prop :=
  (∀ s s' t t' : State, s.freq = s'.freq → s.treeValid = false → s'.treeValid = false → smoothed s →
    exec .buildTree s = .next t → exec .buildTree s' = .next t' → t.node = t'.node) ∧
  (∀ (s : State) (a b : Byte) (f g : Freq), a ≠ b →
    ((s.writeFreq a f).writeFreq b g).freq = ((s.writeFreq b g).writeFreq a f).freq) ∧
  (∀ (s : State) (a : Byte) (f g : Freq), ((s.writeFreq a f).writeFreq a g).freq = (s.writeFreq a g).freq)

/-- R127: after BUILD_TREE node 510 is a compound whose frequency is the sum of FREQ, every other node is a child of
exactly one compound, and children have smaller indices. -/
def Obligations.RootSumsAndUniqueParents : Prop :=
  ∀ s : State, s.treeValid = false → smoothed s →
    ∃ t, exec .buildTree s = .next t ∧ t.treeValid = true ∧ t.node[510].kind = .compound ∧
      t.node[510].freq.toNat = Finset.univ.sum (fun k : Fin 256 => s.freq[k].toNat) ∧
      (∀ i : NodeIndex, i.val < 510 → ∃ c, isChild t.node c i ∧ ∀ c', isChild t.node c' i → c' = c) ∧
      (∀ c i : NodeIndex, isChild t.node c i → i.val < c.val)

/-- R129: in a built tree every compound has two different children, and every symbol's leaf is reached from the root by
exactly one path, of 1 to 255 edges. -/
def Obligations.TreeIsFullWithAllLeaves : Prop :=
  ∀ s : State, Invariant s → s.treeValid = true →
    (∀ i : NodeIndex, s.node[i].kind = .leaf ↔ i.val < 256) ∧
    (∀ c : NodeIndex, s.node[c].kind = .compound → s.node[c].left ≠ s.node[c].right) ∧
    (∀ sym : Byte, ∃ p : List Bool, 1 ≤ p.length ∧ p.length ≤ 255 ∧
      follow s.node 510 p = some (leafIndex sym) ∧ ∀ q, follow s.node 510 q = some (leafIndex sym) → q = p)

/-- R130: of nodes of equal frequency a selection takes a leaf before a compound, and of two compounds the older. -/
def Obligations.TiesGoToTheOlderNode : Prop :=
  ∀ (node : Vector Node 511) (c c' : List NodeIndex) (a j : NodeIndex), select? node c = some (a, c') →
    j ∈ c → node[a].freq = node[j].freq →
    (j.val < 256 → a.val < 256) ∧ (256 ≤ a.val → 256 ≤ j.val ∧ a.val ≤ j.val)

/-- R131: in a built tree every compound's frequency is the exact sum of its children's, and no frequency exceeds
256 times the largest entry. -/
def Obligations.NodeFrequenciesAreExact : Prop :=
  ∀ s : State, Invariant s → s.treeValid = true →
    (∀ c : NodeIndex, (s.readNode c).kind = .compound →
      (s.readNode c).freq.toNat =
        (s.readNode (s.readNode c).left).freq.toNat + (s.readNode (s.readNode c).right).freq.toNat) ∧
    (∀ i : NodeIndex, (s.readNode i).freq.toNat ≤ 256 * (2 ^ 32 - 1))

/-- R128: NODE_READ answers the record's four fields in their bits and changes nothing, for a leaf its symbol's frequency
with zeros above; out of range it is BAD_OPERAND, without a tree BAD_STATE. -/
def Obligations.NodeReadAnswersTheRecord : Prop :=
  (∀ (s : State) (idx : BitVec 16), 510 < idx.toNat →
    exec (.nodeRead idx) s = .next (afterError s .badOperand 0x21)) ∧
  (∀ (s : State) (idx : BitVec 16), idx.toNat ≤ 510 → s.treeValid = false →
    exec (.nodeRead idx) s = .next (afterError s .badState 0x21)) ∧
  (∀ (s : State) (idx : BitVec 16) (i : NodeIndex), idx.toNat = i.val → s.treeValid = true →
    ∃ d : Word, exec (.nodeRead idx) s = .next (afterOk s d) ∧
      d.extractLsb' 0 40 = s.node[i].freq ∧ (d.extractLsb' 40 9).toNat = s.node[i].left.val ∧
      (d.extractLsb' 49 9).toNat = s.node[i].right.val ∧ (d.getLsbD 58 = true ↔ s.node[i].kind = .compound) ∧
      d.extractLsb' 59 5 = 0) ∧
  (∀ (s : State) (sym : Byte), Invariant s → s.treeValid = true →
    exec (.nodeRead (sym.setWidth 16)) s = .next (afterOk s ((s.readFreq sym).setWidth 64))) ∧
  wordForm 0x21 false true false (fun _ idx _ => .nodeRead idx)

/-! ## Code table (spec/43_code_table.md) -/

/-- R140: BUILD_TABLE walks the tree from node 510, left before right, recording each leaf's depth and path; it sets
TABLE_VALID and answers the shortest and the longest length. Without a tree, or with a table, it is BAD_STATE. -/
def Obligations.BuildTableWalksTheTree : Prop :=
  (∀ s : State, s.treeValid = false ∨ s.tableValid = true →
    exec .buildTable s = .next (afterError s .badState 0x30)) ∧
  (∀ s : State, Invariant s → s.treeValid = true → s.tableValid = false →
    ∃ (st : CodeStore) (d : Word), Walks s.node 510 [] 0 { len := s.len, code := s.code } st ∧
      exec .buildTable s = .next { afterOk s d with len := st.len, code := st.code, tableValid := true } ∧
      (∀ k : Fin 256, (d.extractLsb' 0 8).toNat ≤ st.len[k].toNat ∧ st.len[k].toNat ≤ (d.extractLsb' 8 8).toNat) ∧
      (∃ k : Fin 256, st.len[k] = d.extractLsb' 0 8) ∧ (∃ k : Fin 256, st.len[k] = d.extractLsb' 8 8) ∧
      d.extractLsb' 16 48 = 0) ∧
  wordForm 0x30 false false false (fun _ _ _ => .buildTable)

/-- R144: the stored code of every symbol is the one path from node 510 to its leaf. -/
def Obligations.CodesAreTheTreePaths : Prop :=
  ∀ s : State, Invariant s → s.treeValid = true → s.tableValid = false →
    ∃ t, exec .buildTable s = .next t ∧ t.tableValid = true ∧
      ∀ sym : Byte, follow t.node 510 (t.codePath sym) = some (leafIndex sym) ∧
        ∀ p, follow t.node 510 p = some (leafIndex sym) → p = t.codePath sym

/-- R142: with a code table every symbol has a code of 1 to 255 bits, no code is a first part of another, and the Kraft
sum is exactly 1. -/
def Obligations.CodeTableIsCompleteAndFree : Prop :=
  ∀ s : State, Invariant s → s.tableValid = true →
    (∀ sym : Byte, 1 ≤ (s.readLen sym).toNat ∧ (s.readLen sym).toNat ≤ 255 ∧
      ∀ i, (s.readLen sym).toNat ≤ i → (s.readCode sym).getLsbD i = false) ∧
    (∀ a b : Byte, a ≠ b → ¬ s.codePath a <+: s.codePath b) ∧
    Finset.univ.sum (fun k : Fin 256 => 2 ^ (255 - s.len[k].toNat)) = 2 ^ 255

/-- R141: CODE_LEN_READ answers the length, never 0 in a reachable state, and changes nothing; without a table it is
BAD_STATE. -/
def Obligations.CodeLenReadAnswersTheLength : Prop :=
  (∀ (s : State) (sym : Byte), s.tableValid = false →
    exec (.codeLenRead sym) s = .next (afterError s .badState 0x31)) ∧
  (∀ (s : State) (sym : Byte), s.tableValid = true →
    exec (.codeLenRead sym) s = .next (afterOk s ((s.len[sym.toNat]'sym.isLt).setWidth 64)) ∧
    (Invariant s → s.len[sym.toNat]'sym.isLt ≠ 0)) ∧
  wordForm 0x31 true false false (fun sym _ _ => .codeLenRead sym)

/-- R143: CODE_BITS_READ answers 32 code elements, 0 beyond the length, and changes nothing; out of range it is
BAD_OPERAND, without a table BAD_STATE. -/
def Obligations.CodeBitsReadAnswersOneWindow : Prop :=
  (∀ (s : State) (sym : Byte) (idx : BitVec 16), 7 < idx.toNat →
    exec (.codeBitsRead sym idx) s = .next (afterError s .badOperand 0x32)) ∧
  (∀ (s : State) (sym : Byte) (idx : BitVec 16), idx.toNat ≤ 7 → s.tableValid = false →
    exec (.codeBitsRead sym idx) s = .next (afterError s .badState 0x32)) ∧
  (∀ (s : State) (sym : Byte) (idx : BitVec 16), idx.toNat ≤ 7 → s.tableValid = true →
    ∃ d : Word, exec (.codeBitsRead sym idx) s = .next (afterOk s d) ∧
      (∀ j, j < 32 → (d.getLsbD j = true ↔
        32 * idx.toNat + j < (s.len[sym.toNat]'sym.isLt).toNat ∧
          (s.code[sym.toNat]'sym.isLt).getLsbD (32 * idx.toNat + j) = true)) ∧
      d.extractLsb' 32 32 = 0) ∧
  wordForm 0x32 true true false (fun sym idx _ => .codeBitsRead sym idx)

/-! ## Encoder (spec/44_encoder.md) -/

/-- R160: ENC_START opens an operation and clears SENT_IN_DATA; without a table, or with one open, it is BAD_STATE. -/
def Obligations.EncStartOpensAnOperation : Prop :=
  (∀ s : State, s.tableValid = false ∨ s.encState = .active →
    exec .encStart s = .next (afterError s .badState 0x40)) ∧
  (∀ s : State, s.tableValid = true → s.encState = .idle →
    exec .encStart s = .next { afterOk s 0 with encState := .active, sentInData := false }) ∧
  wordForm 0x40 false false false (fun _ _ _ => .encStart)

/-- R161: ENC_SYM appends the symbol's characters, marks the sentinel, and answers the length; with no operation open it
is BAD_STATE. The host consumes ENC_OUT (R235). -/
def Obligations.EncSymAppendsTheCode : Prop :=
  (∀ (s : State) (sym : Byte), s.encState = .idle →
    exec (.encSym sym) s = .next (afterError s .badState 0x41)) ∧
  (∀ (s : State) (sym : Byte), s.encState = .active → s.encRoom = none →
    exec (.encSym sym) s = .next { afterOk s ((s.readLen sym).setWidth 64) with
      encOut := s.encOut ++ chars s sym
      sentInData := if sym = 4 then true else s.sentInData }) ∧
  wordForm 0x41 true false false (fun sym _ _ => .encSym sym)

/-- R162: ENC_END appends the sentinel's characters, closes the operation, and answers the length; with no operation open
it is BAD_STATE. The host consumes ENC_OUT (R235). -/
def Obligations.EncEndAppendsTheSentinel : Prop :=
  (∀ s : State, s.encState = .idle → exec .encEnd s = .next (afterError s .badState 0x42)) ∧
  (∀ s : State, s.encState = .active → s.encRoom = none →
    exec .encEnd s = .next { afterOk s ((s.readLen 4).setWidth 64) with
      encOut := s.encOut ++ chars s 4
      encState := .idle }) ∧
  wordForm 0x42 false false false (fun _ _ _ => .encEnd)

/-- R163: an encode operation's output is the codes of its bytes in order and then the sentinel's, each code its path in
the tree, whatever commands of other families stand between. SOFT_RESET ends the instance, so it is none of them. -/
def Obligations.EncodeOperationOutput : Prop :=
  ∀ (s : State) (bs : List Byte) (cmds : List Instr), s.tableValid = true → s.encState = .idle → drained s →
    cmds.filter isEncoder = encodeAll bs → Instr.softReset ∉ cmds →
    ∃ t, runInstrs cmds s = .next t ∧ t.encOut = s.encOut ++ (bs ++ [4]).flatMap (chars s) ∧ t.encState = .idle ∧
      (t.sentInData = true ↔ 4 ∈ bs) ∧
      (Invariant s → ∀ sym, follow s.node 510 (s.codePath sym) = some (leafIndex sym))

/-- R235: a command that must emit into a port the host no longer consumes completes while the port has room, and hangs
where it has not. The room is the model's (log entry 6). -/
def Obligations.EmissionNeedsRoom : Prop :=
  (∀ (s : State) (sym : Byte) (k : Nat), s.encState = .active → s.encRoom = some k →
    ((s.readLen sym).toNat ≤ k → exec (.encSym sym) s = .next { afterOk s ((s.readLen sym).setWidth 64) with
        encOut := s.encOut ++ chars s sym
        encRoom := some (k - (s.readLen sym).toNat)
        sentInData := if sym = 4 then true else s.sentInData }) ∧
    (k < (s.readLen sym).toNat → exec (.encSym sym) s = .fault .outputHang)) ∧
  (∀ (s : State) (k : Nat), s.encState = .active → s.encRoom = some k →
    ((s.readLen 4).toNat ≤ k → exec .encEnd s = .next { afterOk s ((s.readLen 4).setWidth 64) with
        encOut := s.encOut ++ chars s 4
        encRoom := some (k - (s.readLen 4).toNat)
        encState := .idle }) ∧
    (k < (s.readLen 4).toNat → exec .encEnd s = .fault .outputHang)) ∧
  (∀ (s : State) (b : Bool) (n : NodeIndex) (k : Nat), s.decState = .active → s.decRoom = some k →
    n = (if b = true then s.node[s.decCur].right else s.node[s.decCur].left) →
    s.node[n].kind = .leaf → n.val ≠ 4 →
    (1 ≤ k → exec (.decChar (if b = true then 0x31 else 0x30)) s =
      .next { afterOk s (BitVec.ofNat 64 510 <<< 16 ||| BitVec.ofNat 64 n.val <<< 8 ||| 1) with
        decCur := 510, decOut := s.decOut ++ [BitVec.ofNat 8 n.val], decRoom := some (k - 1) }) ∧
    (k = 0 → exec (.decChar (if b = true then 0x31 else 0x30)) s = .fault .outputHang))

/-! ## Decoder (spec/45_decoder.md) -/

/-- R180: DEC_START opens an operation at the root, from IDLE and from DONE; without a tree, or with one open, it is
BAD_STATE. -/
def Obligations.DecStartOpensAnOperation : Prop :=
  (∀ s : State, s.treeValid = false ∨ s.decState = .active →
    exec .decStart s = .next (afterError s .badState 0x50)) ∧
  (∀ s : State, s.treeValid = true → s.decState ≠ .active →
    exec .decStart s = .next { afterOk s 0 with decState := .active, decCur := 510 }) ∧
  wordForm 0x50 false false false (fun _ _ _ => .decStart)

/-- R181: DEC_CHAR takes one edge: to a compound, which becomes the current node; to the sentinel's leaf, which ends the
operation; or to another leaf, which is emitted. Another character aborts the operation; with none open it is BAD_STATE.
The host consumes DEC_OUT (R235). -/
def Obligations.DecCharTakesOneEdge : Prop :=
  (∀ (s : State) (ch : Byte), s.decState ≠ .active →
    exec (.decChar ch) s = .next (afterError s .badState 0x51)) ∧
  (∀ (s : State) (ch : Byte), s.decState = .active → ch ≠ 0x30 → ch ≠ 0x31 →
    exec (.decChar ch) s = .next (afterError (aborted s) .malformedSymbol 0x51)) ∧
  (∀ (s : State) (b : Bool) (n : NodeIndex), s.decState = .active →
    n = (if b = true then s.node[s.decCur].right else s.node[s.decCur].left) →
    (s.node[n].kind = .compound → exec (.decChar (if b = true then 0x31 else 0x30)) s =
      .next { afterOk s (BitVec.ofNat 64 n.val <<< 16) with decCur := n }) ∧
    (s.node[n].kind = .leaf → n.val = 4 → exec (.decChar (if b = true then 0x31 else 0x30)) s =
      .next { afterOk s 0x0000000001FE0403 with decCur := 510, decState := .done }) ∧
    (s.node[n].kind = .leaf → n.val ≠ 4 → s.decRoom = none → exec (.decChar (if b = true then 0x31 else 0x30)) s =
      .next { afterOk s (BitVec.ofNat 64 510 <<< 16 ||| BitVec.ofNat 64 n.val <<< 8 ||| 1) with
        decCur := 510, decOut := s.decOut ++ [BitVec.ofNat 8 n.val] })) ∧
  wordForm 0x51 true false false (fun sym _ _ => .decChar sym)

/-- R182: DEC_EOS completes a DONE operation, aborts an ACTIVE one with MALFORMED_EOS, and is BAD_STATE when IDLE. -/
def Obligations.DecEosEndsTheOperation : Prop :=
  (∀ s : State, s.decState = .idle → exec .decEos s = .next (afterError s .badState 0x52)) ∧
  (∀ s : State, s.decState = .active → exec .decEos s = .next (afterError (aborted s) .malformedEos 0x52)) ∧
  (∀ s : State, s.decState = .done → exec .decEos s = .next { afterOk s 0 with decState := .idle }) ∧
  wordForm 0x52 false false false (fun _ _ _ => .decEos)

/-- R183: decoding the stream of an encode operation emits the bytes before the first 4 and completes with OK. Where no
byte is 4 that is the whole input, and DONE comes with the stream's last character: every character was consumed. -/
def Obligations.DecodeInvertsEncode : Prop :=
  ∀ (s : State) (bs : List Byte), Invariant s → s.tableValid = true → s.encState = .idle → s.decState ≠ .active → drained s →
    ∃ t u, runInstrs (encodeAll bs) s = .next t ∧
      decodeAll (t.encOut.drop s.encOut.length) t = .next u ∧
      u.decOut = s.decOut ++ bs.takeWhile (fun b => b != 4) ∧ u.decState = .idle ∧ u.lastFailed = false ∧
      (4 ∉ bs → u.decOut = s.decOut ++ bs ∧
        u.responses.length = t.responses.length + (t.encOut.length - s.encOut.length) + 2)

/-! ## Whole-machine rules -/

/-- R32: from a state that meets the invariant no step takes back a byte of either stream; ENC_OUT gets only the two bit
characters and DEC_OUT never gets the sentinel. -/
def Obligations.StreamsOnlyGrow : Prop :=
  ∀ s t : State, Invariant s → step s = .next t →
    ∃ e d : List Byte, t.encOut = s.encOut ++ e ∧ t.decOut = s.decOut ++ d ∧
      (∀ c ∈ e, c = 0x30 ∨ c = 0x31) ∧ 4 ∉ d

/-- R165: an encoder command depends on the encoder's side alone and leaves the decoder's as it was; a decoder command
the other way round. -/
def Obligations.EncoderAndDecoderAreIndependent : Prop :=
  (∀ (i : Instr) (s s' t : State), isEncoder i = true → sameEncoderSide s s' → exec i s = .next t →
    ∃ t' out r, exec i s' = .next t' ∧ sameEncoderSide t t' ∧ t.encOut = s.encOut ++ out ∧
      t'.encOut = s'.encOut ++ out ∧ t.responses = s.responses ++ [r] ∧ t'.responses = s'.responses ++ [r] ∧
      sameDecoderSide s t ∧ t.decOut = s.decOut) ∧
  (∀ (i : Instr) (s s' t : State), isDecoder i = true → sameDecoderSide s s' → exec i s = .next t →
    ∃ t' out r, exec i s' = .next t' ∧ sameDecoderSide t t' ∧ t.decOut = s.decOut ++ out ∧
      t'.decOut = s'.decOut ++ out ∧ t.responses = s.responses ++ [r] ∧ t'.responses = s'.responses ++ [r] ∧
      sameEncoderSide s t ∧ t.encOut = s.encOut)

/-- R57: a read that succeeds changes nothing but the responses, and repeated at once answers the same; one that fails
changes only the error capture. -/
def Obligations.ReadsHaveNoSideEffects : Prop :=
  ∀ (i : Instr) (s t : State), isRead i = true → exec i s = .next t →
    (∃ d, t = afterOk s d ∧ exec i t = .next (afterOk t d)) ∨
    (∃ rc, rc ≠ .ok ∧ t = afterError s rc i.opcode.toByte)

/-- R61: FREQ_WRITE and BUILD_TREE are refused once the tree exists, BUILD_TABLE once the table does; so, but for
SOFT_RESET, no command changes FREQ or NODE, or LEN or CODE, from then on, nor takes back either flag. -/
def Obligations.BuiltTablesAreFrozen : Prop :=
  (∀ (s : State) (sym : Byte) (f : Freq), s.treeValid = true →
    exec (.freqWrite sym f) s = .next (afterError s .badState 0x10) ∧
    exec .buildTree s = .next (afterError s .badState 0x20)) ∧
  (∀ s : State, s.tableValid = true → exec .buildTable s = .next (afterError s .badState 0x30)) ∧
  (∀ (i : Instr) (s t : State), i ≠ .softReset → exec i s = .next t →
    (s.treeValid = true → t.treeValid = true ∧ t.freq = s.freq ∧ t.node = s.node) ∧
    (s.tableValid = true → t.tableValid = true ∧ t.len = s.len ∧ t.code = s.code))

/-- R233: from a state with no tree and no table, loading any smoothed table and BUILD succeed, each of the 258 commands
with OK, and leave the table loaded, the tree and the code table valid. -/
def Obligations.BootSequenceSucceeds : Prop :=
  ∀ (s : State) (f : Byte → Freq), s.treeValid = false → s.tableValid = false → (∀ sym, f sym ≠ 0) →
    ∃ t rs, runInstrs (loadFreqs f ++ build) s = .next t ∧ t.responses = s.responses ++ rs ∧ rs.length = 258 ∧
      (∀ r ∈ rs, r.rc = .ok) ∧ (∀ sym, t.readFreq sym = f sym) ∧ t.treeValid = true ∧ t.tableValid = true

/-- R34, R26: every step keeps the invariant. -/
def Obligations.EveryStepKeepsTheInvariant : Prop := ∀ s t : State, Invariant s → step s = .next t → Invariant t

/-- R34: the invariant holds at reset. -/
def Obligations.InvariantHoldsAtReset : Prop := Invariant State.reset

/-! ## The host's side of a reset -/

/-- A reset leaves the host's side of the ports as it is: the events still pending, the responses already returned, the
room of a port the host no longer consumes. SOFT_RESET adds its own response (R101), hardware reset none. The host's side
is the model's own (log entries 1, 2, 6), and that a reset leaves it is DEDUCED: log entry 10. -/
def Obligations.ResetLeavesTheHostSide : Prop :=
  (∀ s : State, ∃ t, exec .softReset s = .next t ∧ t.port = s.port ∧ t.encRoom = s.encRoom ∧ t.decRoom = s.decRoom ∧
    t.responses = s.responses ++ [{ rc := .ok, data := 0 }]) ∧
  (∀ (s : State) (rest : List HostEvent), s.port = .hardReset :: rest →
    ∃ t, step s = .next t ∧ t.port = rest ∧ t.encRoom = s.encRoom ∧ t.decRoom = s.decRoom ∧ t.responses = s.responses)
end

