-- ==== Sys2Proof/Laws/State.lean ====
section
/-! SUPPORT. One lemma per field per named update of State, so that no proof unfolds a record update. -/

namespace Sys2Proof.Machine

/-! ## writeFreq -/

@[simp] theorem writeFreq_freq (s : State) (sym : Byte) (f : Freq) : (s.writeFreq sym f).freq = s.freq.set (symIndex sym) f := rfl
@[simp] theorem writeFreq_node (s : State) (sym : Byte) (f : Freq) : (s.writeFreq sym f).node = s.node := rfl
@[simp] theorem writeFreq_len (s : State) (sym : Byte) (f : Freq) : (s.writeFreq sym f).len = s.len := rfl
@[simp] theorem writeFreq_code (s : State) (sym : Byte) (f : Freq) : (s.writeFreq sym f).code = s.code := rfl
@[simp] theorem writeFreq_treeValid (s : State) (sym : Byte) (f : Freq) : (s.writeFreq sym f).treeValid = s.treeValid := rfl
@[simp] theorem writeFreq_tableValid (s : State) (sym : Byte) (f : Freq) : (s.writeFreq sym f).tableValid = s.tableValid := rfl
@[simp] theorem writeFreq_encState (s : State) (sym : Byte) (f : Freq) : (s.writeFreq sym f).encState = s.encState := rfl
@[simp] theorem writeFreq_sentInData (s : State) (sym : Byte) (f : Freq) : (s.writeFreq sym f).sentInData = s.sentInData := rfl
@[simp] theorem writeFreq_decState (s : State) (sym : Byte) (f : Freq) : (s.writeFreq sym f).decState = s.decState := rfl
@[simp] theorem writeFreq_decCur (s : State) (sym : Byte) (f : Freq) : (s.writeFreq sym f).decCur = s.decCur := rfl
@[simp] theorem writeFreq_err (s : State) (sym : Byte) (f : Freq) : (s.writeFreq sym f).err = s.err := rfl
@[simp] theorem writeFreq_errCode (s : State) (sym : Byte) (f : Freq) : (s.writeFreq sym f).errCode = s.errCode := rfl
@[simp] theorem writeFreq_errOpc (s : State) (sym : Byte) (f : Freq) : (s.writeFreq sym f).errOpc = s.errOpc := rfl
@[simp] theorem writeFreq_encOut (s : State) (sym : Byte) (f : Freq) : (s.writeFreq sym f).encOut = s.encOut := rfl
@[simp] theorem writeFreq_decOut (s : State) (sym : Byte) (f : Freq) : (s.writeFreq sym f).decOut = s.decOut := rfl
@[simp] theorem writeFreq_port (s : State) (sym : Byte) (f : Freq) : (s.writeFreq sym f).port = s.port := rfl
@[simp] theorem writeFreq_responses (s : State) (sym : Byte) (f : Freq) : (s.writeFreq sym f).responses = s.responses := rfl
@[simp] theorem writeFreq_encRoom (s : State) (sym : Byte) (f : Freq) : (s.writeFreq sym f).encRoom = s.encRoom := rfl
@[simp] theorem writeFreq_decRoom (s : State) (sym : Byte) (f : Freq) : (s.writeFreq sym f).decRoom = s.decRoom := rfl
@[simp] theorem writeFreq_draws (s : State) (sym : Byte) (f : Freq) : (s.writeFreq sym f).draws = s.draws := rfl

/-! ## reply -/

@[simp] theorem reply_freq (s : State) (rc : ResultCode) (d : Word) : (s.reply rc d).freq = s.freq := rfl
@[simp] theorem reply_node (s : State) (rc : ResultCode) (d : Word) : (s.reply rc d).node = s.node := rfl
@[simp] theorem reply_len (s : State) (rc : ResultCode) (d : Word) : (s.reply rc d).len = s.len := rfl
@[simp] theorem reply_code (s : State) (rc : ResultCode) (d : Word) : (s.reply rc d).code = s.code := rfl
@[simp] theorem reply_treeValid (s : State) (rc : ResultCode) (d : Word) : (s.reply rc d).treeValid = s.treeValid := rfl
@[simp] theorem reply_tableValid (s : State) (rc : ResultCode) (d : Word) : (s.reply rc d).tableValid = s.tableValid := rfl
@[simp] theorem reply_encState (s : State) (rc : ResultCode) (d : Word) : (s.reply rc d).encState = s.encState := rfl
@[simp] theorem reply_sentInData (s : State) (rc : ResultCode) (d : Word) : (s.reply rc d).sentInData = s.sentInData := rfl
@[simp] theorem reply_decState (s : State) (rc : ResultCode) (d : Word) : (s.reply rc d).decState = s.decState := rfl
@[simp] theorem reply_decCur (s : State) (rc : ResultCode) (d : Word) : (s.reply rc d).decCur = s.decCur := rfl
@[simp] theorem reply_err (s : State) (rc : ResultCode) (d : Word) : (s.reply rc d).err = s.err := rfl
@[simp] theorem reply_errCode (s : State) (rc : ResultCode) (d : Word) : (s.reply rc d).errCode = s.errCode := rfl
@[simp] theorem reply_errOpc (s : State) (rc : ResultCode) (d : Word) : (s.reply rc d).errOpc = s.errOpc := rfl
@[simp] theorem reply_encOut (s : State) (rc : ResultCode) (d : Word) : (s.reply rc d).encOut = s.encOut := rfl
@[simp] theorem reply_decOut (s : State) (rc : ResultCode) (d : Word) : (s.reply rc d).decOut = s.decOut := rfl
@[simp] theorem reply_port (s : State) (rc : ResultCode) (d : Word) : (s.reply rc d).port = s.port := rfl
@[simp] theorem reply_responses (s : State) (rc : ResultCode) (d : Word) : (s.reply rc d).responses = s.responses ++ [{ rc := rc, data := d }] := rfl
@[simp] theorem reply_encRoom (s : State) (rc : ResultCode) (d : Word) : (s.reply rc d).encRoom = s.encRoom := rfl
@[simp] theorem reply_decRoom (s : State) (rc : ResultCode) (d : Word) : (s.reply rc d).decRoom = s.decRoom := rfl
@[simp] theorem reply_draws (s : State) (rc : ResultCode) (d : Word) : (s.reply rc d).draws = s.draws := rfl

/-! ## respond -/

@[simp] theorem respond_freq (s : State) (d : Word) : (s.respond d).freq = s.freq := rfl
@[simp] theorem respond_node (s : State) (d : Word) : (s.respond d).node = s.node := rfl
@[simp] theorem respond_len (s : State) (d : Word) : (s.respond d).len = s.len := rfl
@[simp] theorem respond_code (s : State) (d : Word) : (s.respond d).code = s.code := rfl
@[simp] theorem respond_treeValid (s : State) (d : Word) : (s.respond d).treeValid = s.treeValid := rfl
@[simp] theorem respond_tableValid (s : State) (d : Word) : (s.respond d).tableValid = s.tableValid := rfl
@[simp] theorem respond_encState (s : State) (d : Word) : (s.respond d).encState = s.encState := rfl
@[simp] theorem respond_sentInData (s : State) (d : Word) : (s.respond d).sentInData = s.sentInData := rfl
@[simp] theorem respond_decState (s : State) (d : Word) : (s.respond d).decState = s.decState := rfl
@[simp] theorem respond_decCur (s : State) (d : Word) : (s.respond d).decCur = s.decCur := rfl
@[simp] theorem respond_err (s : State) (d : Word) : (s.respond d).err = s.err := rfl
@[simp] theorem respond_errCode (s : State) (d : Word) : (s.respond d).errCode = s.errCode := rfl
@[simp] theorem respond_errOpc (s : State) (d : Word) : (s.respond d).errOpc = s.errOpc := rfl
@[simp] theorem respond_encOut (s : State) (d : Word) : (s.respond d).encOut = s.encOut := rfl
@[simp] theorem respond_decOut (s : State) (d : Word) : (s.respond d).decOut = s.decOut := rfl
@[simp] theorem respond_port (s : State) (d : Word) : (s.respond d).port = s.port := rfl
@[simp] theorem respond_responses (s : State) (d : Word) : (s.respond d).responses = s.responses ++ [{ rc := .ok, data := d }] := rfl
@[simp] theorem respond_encRoom (s : State) (d : Word) : (s.respond d).encRoom = s.encRoom := rfl
@[simp] theorem respond_decRoom (s : State) (d : Word) : (s.respond d).decRoom = s.decRoom := rfl
@[simp] theorem respond_draws (s : State) (d : Word) : (s.respond d).draws = s.draws := rfl

/-! ## capture -/

@[simp] theorem capture_freq (s : State) (rc : ResultCode) (opc : Byte) : (s.capture rc opc).freq = s.freq := by
  unfold State.capture; split <;> simp_all
@[simp] theorem capture_node (s : State) (rc : ResultCode) (opc : Byte) : (s.capture rc opc).node = s.node := by
  unfold State.capture; split <;> simp_all
@[simp] theorem capture_len (s : State) (rc : ResultCode) (opc : Byte) : (s.capture rc opc).len = s.len := by
  unfold State.capture; split <;> simp_all
@[simp] theorem capture_code (s : State) (rc : ResultCode) (opc : Byte) : (s.capture rc opc).code = s.code := by
  unfold State.capture; split <;> simp_all
@[simp] theorem capture_treeValid (s : State) (rc : ResultCode) (opc : Byte) : (s.capture rc opc).treeValid = s.treeValid := by
  unfold State.capture; split <;> simp_all
@[simp] theorem capture_tableValid (s : State) (rc : ResultCode) (opc : Byte) : (s.capture rc opc).tableValid = s.tableValid := by
  unfold State.capture; split <;> simp_all
@[simp] theorem capture_encState (s : State) (rc : ResultCode) (opc : Byte) : (s.capture rc opc).encState = s.encState := by
  unfold State.capture; split <;> simp_all
@[simp] theorem capture_sentInData (s : State) (rc : ResultCode) (opc : Byte) : (s.capture rc opc).sentInData = s.sentInData := by
  unfold State.capture; split <;> simp_all
@[simp] theorem capture_decState (s : State) (rc : ResultCode) (opc : Byte) : (s.capture rc opc).decState = s.decState := by
  unfold State.capture; split <;> simp_all
@[simp] theorem capture_decCur (s : State) (rc : ResultCode) (opc : Byte) : (s.capture rc opc).decCur = s.decCur := by
  unfold State.capture; split <;> simp_all
@[simp] theorem capture_err (s : State) (rc : ResultCode) (opc : Byte) : (s.capture rc opc).err = true := by
  unfold State.capture; split <;> simp_all
@[simp] theorem capture_errCode (s : State) (rc : ResultCode) (opc : Byte) : (s.capture rc opc).errCode = if s.err then s.errCode else rc.toByte := by
  unfold State.capture; split <;> simp_all
@[simp] theorem capture_errOpc (s : State) (rc : ResultCode) (opc : Byte) : (s.capture rc opc).errOpc = if s.err then s.errOpc else opc := by
  unfold State.capture; split <;> simp_all
@[simp] theorem capture_encOut (s : State) (rc : ResultCode) (opc : Byte) : (s.capture rc opc).encOut = s.encOut := by
  unfold State.capture; split <;> simp_all
@[simp] theorem capture_decOut (s : State) (rc : ResultCode) (opc : Byte) : (s.capture rc opc).decOut = s.decOut := by
  unfold State.capture; split <;> simp_all
@[simp] theorem capture_port (s : State) (rc : ResultCode) (opc : Byte) : (s.capture rc opc).port = s.port := by
  unfold State.capture; split <;> simp_all
@[simp] theorem capture_responses (s : State) (rc : ResultCode) (opc : Byte) : (s.capture rc opc).responses = s.responses := by
  unfold State.capture; split <;> simp_all
@[simp] theorem capture_encRoom (s : State) (rc : ResultCode) (opc : Byte) : (s.capture rc opc).encRoom = s.encRoom := by
  unfold State.capture; split <;> simp_all
@[simp] theorem capture_decRoom (s : State) (rc : ResultCode) (opc : Byte) : (s.capture rc opc).decRoom = s.decRoom := by
  unfold State.capture; split <;> simp_all
@[simp] theorem capture_draws (s : State) (rc : ResultCode) (opc : Byte) : (s.capture rc opc).draws = s.draws := by
  unfold State.capture; split <;> simp_all

/-! ## errorEntry -/

@[simp] theorem errorEntry_freq (s : State) (rc : ResultCode) (opc : Byte) : (s.errorEntry rc opc).freq = s.freq := by
  simp [State.errorEntry]
@[simp] theorem errorEntry_node (s : State) (rc : ResultCode) (opc : Byte) : (s.errorEntry rc opc).node = s.node := by
  simp [State.errorEntry]
@[simp] theorem errorEntry_len (s : State) (rc : ResultCode) (opc : Byte) : (s.errorEntry rc opc).len = s.len := by
  simp [State.errorEntry]
@[simp] theorem errorEntry_code (s : State) (rc : ResultCode) (opc : Byte) : (s.errorEntry rc opc).code = s.code := by
  simp [State.errorEntry]
@[simp] theorem errorEntry_treeValid (s : State) (rc : ResultCode) (opc : Byte) : (s.errorEntry rc opc).treeValid = s.treeValid := by
  simp [State.errorEntry]
@[simp] theorem errorEntry_tableValid (s : State) (rc : ResultCode) (opc : Byte) : (s.errorEntry rc opc).tableValid = s.tableValid := by
  simp [State.errorEntry]
@[simp] theorem errorEntry_encState (s : State) (rc : ResultCode) (opc : Byte) : (s.errorEntry rc opc).encState = s.encState := by
  simp [State.errorEntry]
@[simp] theorem errorEntry_sentInData (s : State) (rc : ResultCode) (opc : Byte) : (s.errorEntry rc opc).sentInData = s.sentInData := by
  simp [State.errorEntry]
@[simp] theorem errorEntry_decState (s : State) (rc : ResultCode) (opc : Byte) : (s.errorEntry rc opc).decState = s.decState := by
  simp [State.errorEntry]
@[simp] theorem errorEntry_decCur (s : State) (rc : ResultCode) (opc : Byte) : (s.errorEntry rc opc).decCur = s.decCur := by
  simp [State.errorEntry]
@[simp] theorem errorEntry_err (s : State) (rc : ResultCode) (opc : Byte) : (s.errorEntry rc opc).err = true := by
  simp [State.errorEntry]
@[simp] theorem errorEntry_errCode (s : State) (rc : ResultCode) (opc : Byte) : (s.errorEntry rc opc).errCode = if s.err then s.errCode else rc.toByte := by
  simp [State.errorEntry]
@[simp] theorem errorEntry_errOpc (s : State) (rc : ResultCode) (opc : Byte) : (s.errorEntry rc opc).errOpc = if s.err then s.errOpc else opc := by
  simp [State.errorEntry]
@[simp] theorem errorEntry_encOut (s : State) (rc : ResultCode) (opc : Byte) : (s.errorEntry rc opc).encOut = s.encOut := by
  simp [State.errorEntry]
@[simp] theorem errorEntry_decOut (s : State) (rc : ResultCode) (opc : Byte) : (s.errorEntry rc opc).decOut = s.decOut := by
  simp [State.errorEntry]
@[simp] theorem errorEntry_port (s : State) (rc : ResultCode) (opc : Byte) : (s.errorEntry rc opc).port = s.port := by
  simp [State.errorEntry]
@[simp] theorem errorEntry_responses (s : State) (rc : ResultCode) (opc : Byte) : (s.errorEntry rc opc).responses = s.responses ++ [{ rc := rc, data := 0 }] := by
  simp [State.errorEntry]
@[simp] theorem errorEntry_encRoom (s : State) (rc : ResultCode) (opc : Byte) : (s.errorEntry rc opc).encRoom = s.encRoom := by
  simp [State.errorEntry]
@[simp] theorem errorEntry_decRoom (s : State) (rc : ResultCode) (opc : Byte) : (s.errorEntry rc opc).decRoom = s.decRoom := by
  simp [State.errorEntry]
@[simp] theorem errorEntry_draws (s : State) (rc : ResultCode) (opc : Byte) : (s.errorEntry rc opc).draws = s.draws := by
  simp [State.errorEntry]

/-! ## clearCapture -/

@[simp] theorem clearCapture_freq (s : State) : (s.clearCapture).freq = s.freq := rfl
@[simp] theorem clearCapture_node (s : State) : (s.clearCapture).node = s.node := rfl
@[simp] theorem clearCapture_len (s : State) : (s.clearCapture).len = s.len := rfl
@[simp] theorem clearCapture_code (s : State) : (s.clearCapture).code = s.code := rfl
@[simp] theorem clearCapture_treeValid (s : State) : (s.clearCapture).treeValid = s.treeValid := rfl
@[simp] theorem clearCapture_tableValid (s : State) : (s.clearCapture).tableValid = s.tableValid := rfl
@[simp] theorem clearCapture_encState (s : State) : (s.clearCapture).encState = s.encState := rfl
@[simp] theorem clearCapture_sentInData (s : State) : (s.clearCapture).sentInData = s.sentInData := rfl
@[simp] theorem clearCapture_decState (s : State) : (s.clearCapture).decState = s.decState := rfl
@[simp] theorem clearCapture_decCur (s : State) : (s.clearCapture).decCur = s.decCur := rfl
@[simp] theorem clearCapture_err (s : State) : (s.clearCapture).err = false := rfl
@[simp] theorem clearCapture_errCode (s : State) : (s.clearCapture).errCode = 0 := rfl
@[simp] theorem clearCapture_errOpc (s : State) : (s.clearCapture).errOpc = 0 := rfl
@[simp] theorem clearCapture_encOut (s : State) : (s.clearCapture).encOut = s.encOut := rfl
@[simp] theorem clearCapture_decOut (s : State) : (s.clearCapture).decOut = s.decOut := rfl
@[simp] theorem clearCapture_port (s : State) : (s.clearCapture).port = s.port := rfl
@[simp] theorem clearCapture_responses (s : State) : (s.clearCapture).responses = s.responses := rfl
@[simp] theorem clearCapture_encRoom (s : State) : (s.clearCapture).encRoom = s.encRoom := rfl
@[simp] theorem clearCapture_decRoom (s : State) : (s.clearCapture).decRoom = s.decRoom := rfl
@[simp] theorem clearCapture_draws (s : State) : (s.clearCapture).draws = s.draws := rfl

/-! ## abortDecode -/

@[simp] theorem abortDecode_freq (s : State) : (s.abortDecode).freq = s.freq := rfl
@[simp] theorem abortDecode_node (s : State) : (s.abortDecode).node = s.node := rfl
@[simp] theorem abortDecode_len (s : State) : (s.abortDecode).len = s.len := rfl
@[simp] theorem abortDecode_code (s : State) : (s.abortDecode).code = s.code := rfl
@[simp] theorem abortDecode_treeValid (s : State) : (s.abortDecode).treeValid = s.treeValid := rfl
@[simp] theorem abortDecode_tableValid (s : State) : (s.abortDecode).tableValid = s.tableValid := rfl
@[simp] theorem abortDecode_encState (s : State) : (s.abortDecode).encState = s.encState := rfl
@[simp] theorem abortDecode_sentInData (s : State) : (s.abortDecode).sentInData = s.sentInData := rfl
@[simp] theorem abortDecode_decState (s : State) : (s.abortDecode).decState = .idle := rfl
@[simp] theorem abortDecode_decCur (s : State) : (s.abortDecode).decCur = Config.root := rfl
@[simp] theorem abortDecode_err (s : State) : (s.abortDecode).err = s.err := rfl
@[simp] theorem abortDecode_errCode (s : State) : (s.abortDecode).errCode = s.errCode := rfl
@[simp] theorem abortDecode_errOpc (s : State) : (s.abortDecode).errOpc = s.errOpc := rfl
@[simp] theorem abortDecode_encOut (s : State) : (s.abortDecode).encOut = s.encOut := rfl
@[simp] theorem abortDecode_decOut (s : State) : (s.abortDecode).decOut = s.decOut := rfl
@[simp] theorem abortDecode_port (s : State) : (s.abortDecode).port = s.port := rfl
@[simp] theorem abortDecode_responses (s : State) : (s.abortDecode).responses = s.responses := rfl
@[simp] theorem abortDecode_encRoom (s : State) : (s.abortDecode).encRoom = s.encRoom := rfl
@[simp] theorem abortDecode_decRoom (s : State) : (s.abortDecode).decRoom = s.decRoom := rfl
@[simp] theorem abortDecode_draws (s : State) : (s.abortDecode).draws = s.draws := rfl

/-! ## applyReset -/

@[simp] theorem applyReset_freq (s : State) : (s.applyReset).freq = Vector.replicate 256 0 := rfl
@[simp] theorem applyReset_node (s : State) : (s.applyReset).node = Vector.ofFn fun i => Config.freeNode s.draws i.val := rfl
@[simp] theorem applyReset_len (s : State) : (s.applyReset).len = Vector.ofFn fun i => Config.freeLen s.draws i.val := rfl
@[simp] theorem applyReset_code (s : State) : (s.applyReset).code = Vector.ofFn fun i => Config.freeCode s.draws i.val := rfl
@[simp] theorem applyReset_treeValid (s : State) : (s.applyReset).treeValid = false := rfl
@[simp] theorem applyReset_tableValid (s : State) : (s.applyReset).tableValid = false := rfl
@[simp] theorem applyReset_encState (s : State) : (s.applyReset).encState = .idle := rfl
@[simp] theorem applyReset_sentInData (s : State) : (s.applyReset).sentInData = false := rfl
@[simp] theorem applyReset_decState (s : State) : (s.applyReset).decState = .idle := rfl
@[simp] theorem applyReset_decCur (s : State) : (s.applyReset).decCur = Config.root := rfl
@[simp] theorem applyReset_err (s : State) : (s.applyReset).err = false := rfl
@[simp] theorem applyReset_errCode (s : State) : (s.applyReset).errCode = 0 := rfl
@[simp] theorem applyReset_errOpc (s : State) : (s.applyReset).errOpc = 0 := rfl
@[simp] theorem applyReset_encOut (s : State) : (s.applyReset).encOut = s.encOut := rfl
@[simp] theorem applyReset_decOut (s : State) : (s.applyReset).decOut = s.decOut := rfl
@[simp] theorem applyReset_port (s : State) : (s.applyReset).port = s.port := rfl
@[simp] theorem applyReset_responses (s : State) : (s.applyReset).responses = s.responses := rfl
@[simp] theorem applyReset_encRoom (s : State) : (s.applyReset).encRoom = s.encRoom := rfl
@[simp] theorem applyReset_decRoom (s : State) : (s.applyReset).decRoom = s.decRoom := rfl
@[simp] theorem applyReset_draws (s : State) : (s.applyReset).draws = s.draws + 1 := rfl

/-! ## issue -/

@[simp] theorem issue_freq (s : State) (w : Word) : (s.issue w).freq = s.freq := rfl
@[simp] theorem issue_node (s : State) (w : Word) : (s.issue w).node = s.node := rfl
@[simp] theorem issue_len (s : State) (w : Word) : (s.issue w).len = s.len := rfl
@[simp] theorem issue_code (s : State) (w : Word) : (s.issue w).code = s.code := rfl
@[simp] theorem issue_treeValid (s : State) (w : Word) : (s.issue w).treeValid = s.treeValid := rfl
@[simp] theorem issue_tableValid (s : State) (w : Word) : (s.issue w).tableValid = s.tableValid := rfl
@[simp] theorem issue_encState (s : State) (w : Word) : (s.issue w).encState = s.encState := rfl
@[simp] theorem issue_sentInData (s : State) (w : Word) : (s.issue w).sentInData = s.sentInData := rfl
@[simp] theorem issue_decState (s : State) (w : Word) : (s.issue w).decState = s.decState := rfl
@[simp] theorem issue_decCur (s : State) (w : Word) : (s.issue w).decCur = s.decCur := rfl
@[simp] theorem issue_err (s : State) (w : Word) : (s.issue w).err = s.err := rfl
@[simp] theorem issue_errCode (s : State) (w : Word) : (s.issue w).errCode = s.errCode := rfl
@[simp] theorem issue_errOpc (s : State) (w : Word) : (s.issue w).errOpc = s.errOpc := rfl
@[simp] theorem issue_encOut (s : State) (w : Word) : (s.issue w).encOut = s.encOut := rfl
@[simp] theorem issue_decOut (s : State) (w : Word) : (s.issue w).decOut = s.decOut := rfl
@[simp] theorem issue_port (s : State) (w : Word) : (s.issue w).port = .command w :: s.port := rfl
@[simp] theorem issue_responses (s : State) (w : Word) : (s.issue w).responses = s.responses := rfl
@[simp] theorem issue_encRoom (s : State) (w : Word) : (s.issue w).encRoom = s.encRoom := rfl
@[simp] theorem issue_decRoom (s : State) (w : Word) : (s.issue w).decRoom = s.decRoom := rfl
@[simp] theorem issue_draws (s : State) (w : Word) : (s.issue w).draws = s.draws := rfl

end Sys2Proof.Machine
end

