-- ==== Sys2Proof/Laws/Ops.lean ====
section
/-! SUPPORT. What each shared operation can do, said once. -/

namespace Sys2Proof.Machine

/-! ## The error entry (R205) -/

/-- The error entry, whole: the first error is captured, a later one is only reported. -/
theorem errorEntry_eq (s : State) (rc : ResultCode) (opc : Byte) :
    s.errorEntry rc opc =
      { s with
        err := true
        errCode := if s.err then s.errCode else rc.toByte
        errOpc := if s.err then s.errOpc else opc
        responses := s.responses ++ [{ rc := rc, data := 0 }] } := by
  cases h : s.err <;> simp [State.errorEntry, State.capture, State.reply, h]

theorem raise_eq (s : State) (rc : ResultCode) (o : Opcode) :
    s.raise rc o = .next (s.errorEntry rc o.toByte) := rfl

theorem respond_eq (s : State) (d : Word) :
    s.respond d = { s with responses := s.responses ++ [{ rc := .ok, data := d }] } := rfl

/-! ## The output ports (R32, R235) -/

@[simp] theorem roomFor_none (n : Nat) : roomFor none n = true := rfl

@[simp] theorem roomFor_some (k n : Nat) : roomFor (some k) n = decide (n ≤ k) := rfl

@[simp] theorem roomAfter_none (n : Nat) : roomAfter none n = none := rfl

@[simp] theorem roomAfter_some (k n : Nat) : roomAfter (some k) n = some (k - n) := rfl

/-- Everything an encoder emission can do: all the characters, or nothing. -/
theorem emitEnc?_eq_some {s t : State} {cs : List Byte} :
    s.emitEnc? cs = some t ↔
      roomFor s.encRoom cs.length = true ∧
        t = { s with encOut := s.encOut ++ cs, encRoom := roomAfter s.encRoom cs.length } := by
  unfold State.emitEnc?
  by_cases h : roomFor s.encRoom cs.length = true
  · rw [if_pos h, Option.some_inj]; exact ⟨fun e => ⟨h, e.symm⟩, fun e => e.2.symm⟩
  · rw [if_neg h]; exact ⟨fun e => (nomatch e), fun e => absurd e.1 h⟩

theorem emitEnc?_eq_none {s : State} {cs : List Byte} :
    s.emitEnc? cs = none ↔ roomFor s.encRoom cs.length = false := by
  unfold State.emitEnc?
  split <;> simp_all

/-- Everything a decoder emission can do: the byte, or nothing. -/
theorem emitDec?_eq_some {s t : State} {b : Byte} :
    s.emitDec? b = some t ↔
      roomFor s.decRoom 1 = true ∧
        t = { s with decOut := s.decOut ++ [b], decRoom := roomAfter s.decRoom 1 } := by
  unfold State.emitDec?
  by_cases h : roomFor s.decRoom 1 = true
  · rw [if_pos h, Option.some_inj]; exact ⟨fun e => ⟨h, e.symm⟩, fun e => e.2.symm⟩
  · rw [if_neg h]; exact ⟨fun e => (nomatch e), fun e => absurd e.1 h⟩

theorem emitDec?_eq_none {s : State} {b : Byte} :
    s.emitDec? b = none ↔ roomFor s.decRoom 1 = false := by
  unfold State.emitDec?
  split <;> simp_all

/-! ## Operand forms (R74, R181) -/

theorem nodeIndex?_eq_some {idx : BitVec 16} {i : NodeIndex} : nodeIndex? idx = some i ↔ idx.toNat = i.val := by
  unfold nodeIndex?
  split
  · simp [Fin.ext_iff]
  · simp only [reduceCtorEq, false_iff]; omega

theorem nodeIndex?_eq_none {idx : BitVec 16} : nodeIndex? idx = none ↔ 510 < idx.toNat := by
  unfold nodeIndex?
  split <;> simp <;> omega

theorem window?_eq_some {idx : BitVec 16} {w : Fin 8} : window? idx = some w ↔ idx.toNat = w.val := by
  unfold window?
  split
  · simp [Fin.ext_iff]
  · simp only [reduceCtorEq, false_iff]; omega

theorem window?_eq_none {idx : BitVec 16} : window? idx = none ↔ 7 < idx.toNat := by
  unfold window?
  split <;> simp <;> omega

@[simp] theorem bitOfChar?_charOfBit (b : Bool) : bitOfChar? (charOfBit b) = some b := by
  cases b <;> decide

theorem bitOfChar?_eq_some {ch : Byte} {b : Bool} : bitOfChar? ch = some b ↔ ch = charOfBit b := by
  constructor
  · unfold bitOfChar?
    split
    · rintro ⟨⟩; assumption
    · split
      · rintro ⟨⟩; assumption
      · simp
  · rintro rfl; simp

theorem bitOfChar?_eq_none {ch : Byte} : bitOfChar? ch = none ↔ ch ≠ 0x30 ∧ ch ≠ 0x31 := by
  unfold bitOfChar? Config.ch0 Config.ch1
  split
  · simp_all
  · split <;> simp_all

/-! ## Host events -/

theorem takeEvent_idle {s : State} (h : s.port = []) : takeEvent s = .next s := by simp [takeEvent, h]

theorem takeEvent_event {s : State} {e : HostEvent} {rest : List HostEvent} (h : s.port = e :: rest) :
    takeEvent s = handle e { s with port := rest } := by simp [takeEvent, h]

theorem perform_accept {w : Word} {i : Instr} (h : decode w = .accept i) (s : State) : perform w s = exec i s := by
  simp [perform, h]

theorem perform_reject {w : Word} {e : DecodeError} (h : decode w = .reject e) (s : State) :
    perform w s = .next (s.errorEntry .illegalCmd (opcField w)) := by
  simp [perform, h]

/-- What a port with limited room accepts of a cut command's output is a first part of it. -/
theorem withinRoom_prefix (room : Option Nat) (bs : List Byte) : withinRoom room bs <+: bs := by
  cases room with
  | none => exact List.prefix_refl bs
  | some k => exact List.take_prefix k bs

/-- It is no more than the room. -/
theorem withinRoom_length (k : Nat) (bs : List Byte) : (withinRoom (some k) bs).length ≤ k :=
  List.length_take_le k bs

end Sys2Proof.Machine
end

