-- ==== Sys2Proof/Laws/TreeBuilder.lean ====
section
/-! SUPPORT. Selection, one merge, and the forest every build keeps (R121 to R124). -/

namespace Sys2Proof.Machine

/-! ## The canonical order (R122) -/

theorem before_iff {node : Vector Node 511} {i j : NodeIndex} :
    before node i j = true ↔ node[i].freq < node[j].freq ∨ (node[i].freq = node[j].freq ∧ i < j) := by
  simp [before]

theorem before_irrefl (node : Vector Node 511) (i : NodeIndex) : before node i i = false := by
  rw [← Bool.not_eq_true, before_iff]; simp

theorem before_trans {node : Vector Node 511} {i j k : NodeIndex}
    (h1 : before node i j = true) (h2 : before node j k = true) : before node i k = true := by
  rw [before_iff] at *
  simp only [BitVec.lt_def, ← BitVec.toNat_inj, Fin.lt_def] at *
  omega

theorem before_total {node : Vector Node 511} {i j : NodeIndex} (h : i ≠ j) (h' : before node i j = false) :
    before node j i = true := by
  rw [← Bool.not_eq_true, before_iff] at h'
  rw [before_iff]
  simp only [BitVec.lt_def, ← BitVec.toNat_inj, Fin.lt_def, ne_eq, Fin.ext_iff] at *
  omega

/-! ## Selection (R122) -/

@[simp] theorem least?_eq_none {node : Vector Node 511} {c : List NodeIndex} : least? node c = none ↔ c = [] := by
  cases c with
  | nil => simp [least?]
  | cons i rest => simp only [least?, reduceCtorEq, iff_false]; split <;> (try split) <;> simp

theorem least?_mem {node : Vector Node 511} {c : List NodeIndex} {a : NodeIndex} (h : least? node c = some a) :
    a ∈ c := by
  induction c generalizing a with
  | nil => simp [least?] at h
  | cons i rest ih =>
    simp only [least?] at h
    split at h
    · simp_all
    · rename_i j hj
      split at h
      · simp_all
      · cases h; exact List.mem_cons_of_mem _ (ih hj)

theorem least?_before {node : Vector Node 511} {c : List NodeIndex} {a : NodeIndex} (h : least? node c = some a)
    {j : NodeIndex} (hj : j ∈ c) (hne : j ≠ a) : before node a j = true := by
  induction c generalizing a with
  | nil => simp [least?] at h
  | cons i rest ih =>
    simp only [least?] at h
    split at h
    · rename_i hr
      rw [least?_eq_none] at hr
      simp_all
    · rename_i m hm
      split at h
      · rename_i hb
        cases h
        rcases List.mem_cons.1 hj with rfl | hj
        · exact absurd rfl hne
        · by_cases hjm : j = m
          · exact hjm ▸ hb
          · exact before_trans hb (ih hm hj hjm)
      · rename_i hb
        cases h
        rcases List.mem_cons.1 hj with rfl | hj
        · exact before_total hne (by simpa using hb)
        · exact ih hm hj hne

/-- Everything a selection can do: it takes a member that comes before all the others. -/
theorem select?_eq_some {node : Vector Node 511} {c c' : List NodeIndex} {a : NodeIndex}
    (h : select? node c = some (a, c')) :
    a ∈ c ∧ c' = c.erase a ∧ ∀ j ∈ c, j ≠ a → before node a j = true := by
  simp only [select?, Option.map_eq_some_iff, Prod.mk.injEq] at h
  obtain ⟨x, hx, rfl, rfl⟩ := h
  exact ⟨least?_mem hx, rfl, fun j hj => least?_before hx hj⟩

theorem select?_of_ne_nil (node : Vector Node 511) {c : List NodeIndex} (h : c ≠ []) :
    ∃ a c', select? node c = some (a, c') := by
  cases hl : least? node c with
  | none => exact absurd (least?_eq_none.1 hl) h
  | some a => exact ⟨a, c.erase a, by simp [select?, hl]⟩

/-! ## One merge (R123) -/

/-- What a merge does when it happens: two selections, then the compound of the two. -/
theorem Build.merge_eq {b : Build} {x y : NodeIndex} {c1 c2 : List NodeIndex}
    (h1 : select? b.node b.coll = some (x, c1)) (h2 : select? b.node c1 = some (y, c2)) (h : b.nextSeq < 511) :
    b.merge =
      { node := b.node.set b.nextSeq (compoundNode b.node x y)
        coll := ⟨b.nextSeq, h⟩ :: c2
        nextSeq := b.nextSeq + 1 } := by
  simp [Build.merge, h1, h2, h]

/-! ## The forest a build keeps -/

/-- A tree of node indices, as it lies in an arena. -/
inductive Tree where
  | leaf (i : NodeIndex)
  | fork (i : NodeIndex) (l r : Tree)
  deriving DecidableEq, Repr

/-- The index of a tree's root. -/
def Tree.root : Tree → NodeIndex
  | .leaf i => i
  | .fork i _ _ => i

/-- Every node index of a tree. -/
def Tree.nodes : Tree → List NodeIndex
  | .leaf i => [i]
  | .fork i l r => i :: (l.nodes ++ r.nodes)

/-- The leaves' indices, left to right. -/
def Tree.leaves : Tree → List NodeIndex
  | .leaf i => [i]
  | .fork _ l r => l.leaves ++ r.leaves

/-- The longest path's length. -/
def Tree.height : Tree → Nat
  | .leaf _ => 0
  | .fork _ l r => max l.height r.height + 1

/-- The arena's records say that this tree lies in it (R22, R23). -/
def Tree.Fits (node : Vector Node 511) : Tree → Prop
  | .leaf i => i.val < 256 ∧ node[i].kind = .leaf
  | .fork i l r =>
    256 ≤ i.val ∧ node[i].kind = .compound ∧ node[i].left = l.root ∧ node[i].right = r.root ∧
      l.root < i ∧ r.root < i ∧ node[i].freq = node[l.root].freq + node[r.root].freq ∧ l.Fits node ∧ r.Fits node

@[simp] theorem Tree.root_leaf (i : NodeIndex) : (Tree.leaf i).root = i := rfl

@[simp] theorem Tree.root_fork (i : NodeIndex) (l r : Tree) : (Tree.fork i l r).root = i := rfl

theorem Tree.root_mem_nodes (t : Tree) : t.root ∈ t.nodes := by
  cases t <;> simp [Tree.root, Tree.nodes]

/-- Fitting depends on the records of the tree's own nodes only. -/
theorem Tree.Fits.congr {node node' : Vector Node 511} {t : Tree} (h : t.Fits node)
    (heq : ∀ i ∈ t.nodes, node'[i] = node[i]) : t.Fits node' := by
  induction t with
  | leaf i => simpa [Tree.Fits, heq i (by simp [Tree.nodes])] using h
  | fork i l r ihl ihr =>
    obtain ⟨h1, h2, h3, h4, h5, h6, h7, h8, h9⟩ := h
    have hi : node'[i] = node[i] := heq i (by simp [Tree.nodes])
    have hl : ∀ j ∈ l.nodes, node'[j] = node[j] := fun j hj => heq j (by simp [Tree.nodes, hj])
    have hr : ∀ j ∈ r.nodes, node'[j] = node[j] := fun j hj => heq j (by simp [Tree.nodes, hj])
    refine ⟨h1, ?_, ?_, ?_, h5, h6, ?_, ihl h8 hl, ihr h9 hr⟩
    · rw [hi, h2]
    · rw [hi, h3]
    · rw [hi, h4]
    · rw [hi, h7, hl _ l.root_mem_nodes, hr _ r.root_mem_nodes]

theorem Tree.leaves_sublist_nodes (t : Tree) : t.leaves.Sublist t.nodes := by
  induction t with
  | leaf i => simp [Tree.leaves, Tree.nodes]
  | fork i l r ihl ihr => exact (ihl.append ihr).cons i

/-- Every node of a fitting tree that is below 256 is one of its leaves. -/
theorem Tree.Fits.mem_leaves {node : Vector Node 511} {t : Tree} (h : t.Fits node) {i : NodeIndex}
    (hi : i ∈ t.nodes) : i ∈ t.leaves ↔ i.val < 256 := by
  induction t with
  | leaf j => simp [Tree.nodes] at hi; subst hi; simp [Tree.leaves, h.1]
  | fork j l r ihl ihr =>
    obtain ⟨h1, -, -, -, -, -, -, h8, h9⟩ := h
    simp only [Tree.nodes, List.mem_cons, List.mem_append] at hi
    simp only [Tree.leaves, List.mem_append]
    have hleaf : ∀ {u : Tree}, u.Fits node → ∀ k ∈ u.leaves, k.val < 256 := by
      intro u
      induction u with
      | leaf k => intro hu m hm; simp [Tree.leaves] at hm; subst hm; exact hu.1
      | fork k a b iha ihb =>
        intro hu m hm
        rcases List.mem_append.1 hm with hm | hm
        · exact iha hu.2.2.2.2.2.2.2.1 m hm
        · exact ihb hu.2.2.2.2.2.2.2.2 m hm
    constructor
    · rintro (h | h)
      · exact hleaf h8 i h
      · exact hleaf h9 i h
    · intro hlt
      rcases hi with rfl | hi | hi
      · omega
      · exact .inl ((ihl h8 hi).2 hlt)
      · exact .inr ((ihr h9 hi).2 hlt)

/-- The height of a fitting tree: each edge goes to a smaller index, and a fork's index is at least 256 (R129). -/
theorem Tree.Fits.height_le {node : Vector Node 511} {t : Tree} (h : t.Fits node) : t.height ≤ t.root.val - 255 := by
  induction t with
  | leaf i => simp [Tree.height]
  | fork i l r ihl ihr =>
    obtain ⟨h1, -, -, -, h5, h6, -, h8, h9⟩ := h
    have := ihl h8; have := ihr h9
    simp only [Tree.height, Tree.root] at *
    simp only [Fin.lt_def] at h5 h6
    omega

/-- The node indices below `n`. -/
def below (n : Nat) : List NodeIndex := (List.finRange 511).filter fun i => decide (i.val < n)

theorem mem_below {n : Nat} {i : NodeIndex} : i ∈ below n ↔ i.val < n := by simp [below]

theorem nodup_below (n : Nat) : (below n).Nodup := (List.nodup_finRange 511).filter _

theorem below_succ_perm {n : Nat} (h : n < 511) : (below (n + 1)).Perm (⟨n, h⟩ :: below n) := by
  refine (List.perm_ext_iff_of_nodup (nodup_below _) ?_).2 fun i => ?_
  · exact List.nodup_cons.2 ⟨by simp [mem_below], nodup_below n⟩
  · simp only [mem_below, List.mem_cons, Fin.ext_iff]; omega

/-- What holds of a build at every point: the working collection is the roots of a forest that covers every node made
so far (R121 to R124). -/
structure Forest (freq : Vector Freq 256) (b : Build) (f : List Tree) : Prop where
  roots  : (f.map Tree.root).Perm b.coll
  fits   : ∀ t ∈ f, t.Fits b.node
  covers : (f.flatMap Tree.nodes).Perm (below b.nextSeq)
  leaves : ∀ (i : NodeIndex) (h : i.val < 256), b.node[i] = leafNode freq[i.val]
  seq_ge : 256 ≤ b.nextSeq
  count  : f.length + b.nextSeq = 512

theorem initBuild_forest (freq : Vector Freq 256) (prior : Vector Node 511) :
    Forest freq (initBuild freq prior) ((initBuild freq prior).coll.map Tree.leaf) where
  roots := by simp [Function.comp_def, Tree.root]
  fits := by
    intro t ht
    simp only [initBuild, List.map_map, List.mem_map] at ht
    obtain ⟨i, -, rfl⟩ := ht
    simp [Tree.Fits, initBuild, leafNode]
  covers := by
    have : ((initBuild freq prior).coll.map Tree.leaf).flatMap Tree.nodes = (initBuild freq prior).coll := by
      simp [List.flatMap_map, Tree.nodes]
    rw [this]
    refine (List.perm_ext_iff_of_nodup ?_ (nodup_below _)).2 fun i => ?_
    · exact (List.nodup_finRange 256).map fun a b h => by simpa [Fin.ext_iff] using h
    · simp only [initBuild, Config.seqFirstCompound, mem_below, List.mem_map, List.mem_finRange, true_and]
      exact ⟨by rintro ⟨a, rfl⟩; exact a.isLt, fun h => ⟨⟨i.val, h⟩, rfl⟩⟩
  leaves := by intro i h; simp [initBuild, h]
  seq_ge := by simp [initBuild, Config.seqFirstCompound]
  count := by simp [initBuild, Config.seqFirstCompound]

/-- A merge of a forest of at least two trees: what it selects, what it makes, and the forest it leaves. -/
theorem Forest.merge {freq : Vector Freq 256} {b : Build} {f : List Tree} (hf : Forest freq b f)
    (h2 : 2 ≤ f.length) :
    ∃ (tx ty : Tree) (f' : List Tree) (hn : b.nextSeq < 511), f.Perm (tx :: ty :: f') ∧
      b.merge.nextSeq = b.nextSeq + 1 ∧
      b.merge.node = b.node.set b.nextSeq (compoundNode b.node tx.root ty.root) ∧
      Forest freq b.merge (.fork ⟨b.nextSeq, hn⟩ tx ty :: f') := by
  have hcount := hf.count
  have hn : b.nextSeq < 511 := by omega
  have hlen : b.coll.length = f.length := by rw [← hf.roots.length_eq]; simp
  obtain ⟨x, c1, hx⟩ := select?_of_ne_nil b.node (c := b.coll) (by rintro h; simp [h] at hlen; omega)
  obtain ⟨hxm, rfl, -⟩ := select?_eq_some hx
  obtain ⟨y, c2, hy⟩ := select?_of_ne_nil b.node (c := b.coll.erase x)
    (by rintro h; have := congrArg List.length h; simp [List.length_erase_of_mem hxm] at this; omega)
  obtain ⟨hym, rfl, -⟩ := select?_eq_some hy
  obtain ⟨tx, htx, rfl⟩ := List.mem_map.1 (hf.roots.mem_iff.2 hxm)
  have hp1 : f.Perm (tx :: f.erase tx) := List.perm_cons_erase htx
  have hr1 : ((f.erase tx).map Tree.root).Perm (b.coll.erase tx.root) := by
    refine List.Perm.cons_inv (a := tx.root) ?_
    exact ((hp1.map Tree.root).symm.trans hf.roots).trans (List.perm_cons_erase hxm)
  obtain ⟨ty, hty, rfl⟩ := List.mem_map.1 (hr1.mem_iff.2 hym)
  have hp2 : (f.erase tx).Perm (ty :: (f.erase tx).erase ty) := List.perm_cons_erase hty
  have hr2 : (((f.erase tx).erase ty).map Tree.root).Perm ((b.coll.erase tx.root).erase ty.root) := by
    refine List.Perm.cons_inv (a := ty.root) ?_
    exact ((hp2.map Tree.root).symm.trans hr1).trans (List.perm_cons_erase hym)
  have hp : f.Perm (tx :: ty :: (f.erase tx).erase ty) := hp1.trans (hp2.cons tx)
  have hmerge := Build.merge_eq hx hy hn
  have hcov : ∀ t ∈ f, ∀ i ∈ t.nodes, i.val < b.nextSeq := fun t ht i hi =>
    mem_below.1 (hf.covers.mem_iff.1 (List.mem_flatMap.2 ⟨t, ht, hi⟩))
  have hkeep : ∀ i : NodeIndex, i.val < b.nextSeq →
      (b.node.set b.nextSeq (compoundNode b.node tx.root ty.root))[i] = b.node[i] := by
    intro i hi
    exact Vector.getElem_set_ne _ _ (by omega)
  have hfits : ∀ t ∈ f, t.Fits (b.node.set b.nextSeq (compoundNode b.node tx.root ty.root)) := fun t ht =>
    (hf.fits t ht).congr fun i hi => hkeep i (hcov t ht i hi)
  have htyf : ty ∈ f := hp.mem_iff.2 (by simp)
  refine ⟨tx, ty, (f.erase tx).erase ty, hn, hp, by rw [hmerge], by rw [hmerge], ?_⟩
  rw [hmerge]
  refine ⟨?_, ?_, ?_, ?_, ?_, ?_⟩
  · simpa [Tree.root] using hr2
  · intro t ht
    rcases List.mem_cons.1 ht with rfl | ht
    · have hxs := hcov tx htx _ tx.root_mem_nodes
      have hys := hcov ty htyf _ ty.root_mem_nodes
      have hself : (b.node.set b.nextSeq (compoundNode b.node tx.root ty.root))[(⟨b.nextSeq, hn⟩ : NodeIndex)]
          = compoundNode b.node tx.root ty.root := Vector.getElem_set_self _
      refine ⟨hf.seq_ge, ?_, ?_, ?_, hxs, hys, ?_, hfits tx htx, hfits ty htyf⟩
      · rw [hself]; rfl
      · rw [hself]; rfl
      · rw [hself]; rfl
      · rw [hself, hkeep _ hxs, hkeep _ hys]; rfl
    · exact hfits t (hp.mem_iff.2 (by simp [ht]))
  · refine List.Perm.trans ?_ (below_succ_perm hn).symm
    simp only [List.flatMap_cons, Tree.nodes, List.cons_append, List.append_assoc]
    refine List.Perm.cons _ ?_
    exact (hp.symm.flatMap_right _).trans hf.covers |> fun h => by simpa using h
  · intro i h
    rw [hkeep i (by have := hf.seq_ge; omega)]
    exact hf.leaves i h
  · have := hf.seq_ge; simp only; omega
  · have := hp.length_eq; simp only [List.length_cons] at *; omega

/-- The forest after `k` merges (R124). -/
theorem merges_forest (freq : Vector Freq 256) (prior : Vector Node 511) {k : Nat} (hk : k ≤ 255) :
    (merges k (initBuild freq prior)).nextSeq = 256 + k ∧ ∃ f, Forest freq (merges k (initBuild freq prior)) f := by
  induction k with
  | zero => exact ⟨rfl, _, initBuild_forest freq prior⟩
  | succ k ih =>
    obtain ⟨hs, f, hf⟩ := ih (by omega)
    have hc := hf.count
    obtain ⟨tx, ty, f', hn, -, hseq, -, hf'⟩ := hf.merge (by omega)
    exact ⟨by simp only [merges]; rw [hseq, hs]; omega, _, hf'⟩

/-! ## The built arena -/

/-- No node of a fitting tree has a larger index than its root. -/
theorem Tree.Fits.le_root {node : Vector Node 511} {t : Tree} (h : t.Fits node) {i : NodeIndex} (hi : i ∈ t.nodes) :
    i ≤ t.root := by
  induction t with
  | leaf j => simp only [Tree.nodes, List.mem_singleton] at hi; exact le_of_eq hi
  | fork j l r ihl ihr =>
    obtain ⟨-, -, -, -, h5, h6, -, h8, h9⟩ := h
    simp only [Tree.nodes, List.mem_cons, List.mem_append] at hi
    rcases hi with rfl | hi | hi
    · exact le_refl _
    · exact (ihl h8 hi).trans (le_of_lt h5)
    · exact (ihr h9 hi).trans (le_of_lt h6)

/-- Every node of a fitting tree is the root of a fitting subtree. -/
theorem Tree.Fits.subtree {node : Vector Node 511} {t : Tree} (h : t.Fits node) {i : NodeIndex} (hi : i ∈ t.nodes) :
    ∃ u : Tree, u.root = i ∧ u.Fits node ∧ u.nodes.Sublist t.nodes ∧ u.leaves.Sublist t.leaves := by
  induction t with
  | leaf j =>
    simp only [Tree.nodes, List.mem_singleton] at hi
    exact ⟨.leaf j, hi.symm, h, List.Sublist.refl _, List.Sublist.refl _⟩
  | fork j l r ihl ihr =>
    have h8 := h.2.2.2.2.2.2.2.1
    have h9 := h.2.2.2.2.2.2.2.2
    simp only [Tree.nodes, List.mem_cons, List.mem_append] at hi
    rcases hi with rfl | hi | hi
    · exact ⟨_, rfl, h, List.Sublist.refl _, List.Sublist.refl _⟩
    · obtain ⟨u, h1, h2, h3, h4⟩ := ihl h8 hi
      exact ⟨u, h1, h2, (h3.trans (List.sublist_append_left ..)).cons _, h4.trans (List.sublist_append_left ..)⟩
    · obtain ⟨u, h1, h2, h3, h4⟩ := ihr h9 hi
      exact ⟨u, h1, h2, (h3.trans (List.sublist_append_right ..)).cons _, h4.trans (List.sublist_append_right ..)⟩

/-- The frequency of a fitting tree's root is the sum of its leaves' where that sum fits 40 bits (R131). -/
theorem Tree.Fits.freq_eq_sum {node : Vector Node 511} {t : Tree} (h : t.Fits node)
    (hs : (t.leaves.map fun i => node[i].freq.toNat).sum < 2 ^ 40) :
    node[t.root].freq.toNat = (t.leaves.map fun i => node[i].freq.toNat).sum := by
  induction t with
  | leaf j => simp [Tree.leaves]
  | fork j l r ihl ihr =>
    obtain ⟨-, -, -, -, -, -, h7, h8, h9⟩ := h
    simp only [Tree.leaves, List.map_append, List.sum_append] at hs ⊢
    show node[j].freq.toNat = _
    rw [h7, BitVec.toNat_add, ihl h8 (by omega), ihr h9 (by omega)]
    exact Nat.mod_eq_of_lt hs

/-- After 255 merges one tree is left: its root is node 510, alone in the collection, and it holds every node (R124). -/
theorem merges_final (freq : Vector Freq 256) (prior : Vector Node 511) :
    ∃ t : Tree, (merges 255 (initBuild freq prior)).coll = [t.root] ∧ t.root = Config.root ∧
      t.Fits (buildArena freq prior) ∧ t.nodes.Perm (List.finRange 511) := by
  obtain ⟨hs, f, hf⟩ := merges_forest freq prior (k := 255) (by omega)
  have hc := hf.count
  obtain ⟨t, rfl⟩ : ∃ t, f = [t] := List.length_eq_one_iff.1 (by omega)
  have hcov : t.nodes.Perm (below 511) := by simpa [hs] using hf.covers
  have hall : below 511 = List.finRange 511 := by
    simp only [below, List.filter_eq_self, decide_eq_true_eq]; intro i _; exact i.isLt
  have hroot : (510 : NodeIndex) ∈ t.nodes := hcov.mem_iff.2 (mem_below.2 (by decide))
  have hfit := hf.fits t (by simp)
  exact ⟨t, List.singleton_perm.1 (by simpa using hf.roots) |>.symm, le_antisymm (Fin.le_last (n := 510) t.root)
    (hfit.le_root hroot), hfit, hall ▸ hcov⟩

/-- A built arena holds one tree: its root is node 510 and it holds every node (R124, R127). -/
theorem buildArena_tree (freq : Vector Freq 256) (prior : Vector Node 511) :
    ∃ t : Tree, t.root = Config.root ∧ t.Fits (buildArena freq prior) ∧ t.nodes.Perm (List.finRange 511) := by
  obtain ⟨t, -, h⟩ := merges_final freq prior
  exact ⟨t, h⟩

/-- The leaf records of a built arena (R121). -/
theorem buildArena_leaf (freq : Vector Freq 256) (prior : Vector Node 511) (i : NodeIndex) (h : i.val < 256) :
    (buildArena freq prior)[i] = leafNode freq[i.val] := by
  obtain ⟨-, f, hf⟩ := merges_forest freq prior (k := 255) (by omega)
  exact hf.leaves i h

/-- The leaves of the built tree are the 256 symbols' (R121, R129). -/
theorem buildArena_leaves {freq : Vector Freq 256} {prior : Vector Node 511} {t : Tree}
    (hfit : t.Fits (buildArena freq prior)) (hp : t.nodes.Perm (List.finRange 511)) :
    t.leaves.Perm ((List.finRange 256).map fun i => i.castLE (by decide)) := by
  refine (List.perm_ext_iff_of_nodup ?_ ?_).2 fun i => ?_
  · exact (hp.nodup_iff.2 (List.nodup_finRange 511)).sublist t.leaves_sublist_nodes
  · exact (List.nodup_finRange 256).map fun a b h => by simpa [Fin.ext_iff] using h
  · rw [hfit.mem_leaves (hp.mem_iff.2 (List.mem_finRange _))]
    simp only [List.mem_map, List.mem_finRange, true_and]
    exact ⟨fun h => ⟨⟨i.val, h⟩, rfl⟩, by rintro ⟨a, rfl⟩; exact a.isLt⟩

/-- The kinds of a built arena's records (R22, R23): the leaves are the indices below 256. -/
theorem buildArena_kind (freq : Vector Freq 256) (prior : Vector Node 511) (i : NodeIndex) :
    (buildArena freq prior)[i].kind = if i.val < 256 then .leaf else .compound := by
  split
  · rename_i h; rw [buildArena_leaf _ _ _ h]; rfl
  · rename_i h
    obtain ⟨t, -, hfit, hp⟩ := buildArena_tree freq prior
    have hi : i ∈ t.nodes := hp.mem_iff.2 (List.mem_finRange i)
    have hkind : ∀ {u : Tree}, u.Fits (buildArena freq prior) → i ∈ u.nodes →
        (buildArena freq prior)[i].kind = .compound := by
      intro u
      induction u with
      | leaf j => intro hu hm; simp [Tree.nodes] at hm; subst hm; exact absurd hu.1 h
      | fork j l r ihl ihr =>
        rintro ⟨-, h2, -, -, -, -, -, h8, h9⟩ hm
        simp only [Tree.nodes, List.mem_cons, List.mem_append] at hm
        rcases hm with rfl | hm | hm
        · exact h2
        · exact ihl h8 hm
        · exact ihr h9 hm
    exact hkind hfit hi

end Sys2Proof.Machine
end

