-- ==== Sys2Proof/Laws/CodeTable.lean ====
section
/-! SUPPORT. Stored codes bit by bit, the walk of a tree, and the store a walk leaves (R140, R143, R144). -/

namespace Sys2Proof.Machine

/-! ## Stored bits -/

theorem getLsbD_pathBits (p : List Bool) (i : Nat) :
    (pathBits p).getLsbD i = (decide (i < 255) && p.getD i false) := by
  unfold pathBits
  by_cases h : i < 255
  · simp [h]
  · simp [h, BitVec.getLsbD_of_ge _ i (Nat.le_of_not_lt h)]

theorem getLsbD_codeWindow (len : CodeLen) (code : CodeBits) (w : Fin 8) (j : Nat) :
    (codeWindow len code w).getLsbD j =
      (decide (j < 32) && (decide (32 * w.val + j < len.toNat) && code.getLsbD (32 * w.val + j))) := by
  unfold codeWindow
  by_cases h : j < 32
  · simp [h]
  · simp [h, BitVec.getLsbD_of_ge _ j (Nat.le_of_not_lt h)]

/-- A path of at most 255 edges is read back from its stored bits. -/
theorem path_of_pathBits {p : List Bool} (h : p.length ≤ 255) :
    ((List.range p.length).map fun i => (pathBits p).getLsbD i) = p := by
  refine List.ext_getElem (by simp) fun i h1 h2 => ?_
  have : i < 255 := by omega
  simp [getLsbD_pathBits, this, h2]

/-! ## Paths followed in an arena -/

@[simp] theorem follow_nil (node : Vector Node 511) (n : NodeIndex) : follow node n [] = some n := rfl

theorem follow_cons_leaf {node : Vector Node 511} {n : NodeIndex} (h : node[n].kind = .leaf) (b : Bool)
    (r : List Bool) : follow node n (b :: r) = none := by
  simp only [follow, h]

theorem follow_cons_compound {node : Vector Node 511} {n : NodeIndex} (h : node[n].kind = .compound) (b : Bool)
    (r : List Bool) :
    follow node n (b :: r) = follow node (if b then node[n].right else node[n].left) r := by
  simp only [follow, h]

/-- A path followed through `m` goes on from `m`. -/
theorem follow_append {node : Vector Node 511} {n m : NodeIndex} {p q : List Bool} (h : follow node n p = some m) :
    follow node n (p ++ q) = follow node m q := by
  induction p generalizing n with
  | nil => simp only [follow_nil, Option.some.injEq] at h; rw [h]; rfl
  | cons b p ih =>
    cases hk : node[n].kind with
    | leaf => rw [follow_cons_leaf hk] at h; cases h
    | compound =>
      rw [follow_cons_compound hk] at h
      rw [List.cons_append, follow_cons_compound hk]
      exact ih h

/-! ## The walk (R140) -/

/-- The leaves of a tree with their paths, in the order of the walk; `q` is the path to the tree's root. -/
def Tree.paths : Tree → List Bool → List (NodeIndex × List Bool)
  | .leaf i, q => [(i, q)]
  | .fork _ l r, q => l.paths (q ++ [false]) ++ r.paths (q ++ [true])

/-- One leaf's record, as the walk makes it. -/
def CodeStore.recordPath (t : CodeStore) (e : NodeIndex × List Bool) : CodeStore := t.record e.1 e.2 e.2.length

/-- The walk of a tree that fits records every leaf with its path, left subtree first. -/
theorem walk_tree {node : Vector Node 511} {t : Tree} (h : t.Fits node) {fuel : Nat} (hf : t.height < fuel)
    (q : List Bool) (st : CodeStore) :
    walk node fuel t.root q q.length st = (t.paths q).foldl CodeStore.recordPath st := by
  induction t generalizing fuel q st with
  | leaf i =>
    obtain ⟨fuel, rfl⟩ : ∃ k, fuel = k + 1 := ⟨fuel - 1, by omega⟩
    simp only [walk, Tree.root_leaf, h.2, Tree.paths, List.foldl_cons, List.foldl_nil, CodeStore.recordPath]
  | fork i l r ihl ihr =>
    obtain ⟨fuel, rfl⟩ : ∃ k, fuel = k + 1 := ⟨fuel - 1, by omega⟩
    obtain ⟨-, h2, h3, h4, -, -, -, h8, h9⟩ := h
    simp only [Tree.height] at hf
    simp only [walk, Tree.root_fork, h2, h3, h4, Tree.paths, List.foldl_append]
    have hl := ihl h8 (fuel := fuel) (by omega) (q ++ [false]) st
    have hr := ihr h9 (fuel := fuel) (by omega) (q ++ [true]) ((l.paths (q ++ [false])).foldl CodeStore.recordPath st)
    simp only [List.length_append, List.length_cons, List.length_nil, Nat.zero_add] at hl hr
    rw [hl, hr]

theorem Tree.paths_keys (t : Tree) (q : List Bool) : (t.paths q).map Prod.fst = t.leaves := by
  induction t generalizing q with
  | leaf i => simp [Tree.paths, Tree.leaves]
  | fork i l r ihl ihr => simp [Tree.paths, Tree.leaves, ihl, ihr]

/-- Every recorded path extends the path to the root by at most the tree's height. -/
theorem Tree.paths_length {t : Tree} {q : List Bool} {e : NodeIndex × List Bool} (h : e ∈ t.paths q) :
    q.length ≤ e.2.length ∧ e.2.length ≤ q.length + t.height := by
  induction t generalizing q with
  | leaf i => simp [Tree.paths] at h; subst h; simp [Tree.height]
  | fork i l r ihl ihr =>
    simp only [Tree.paths, List.mem_append] at h
    simp only [Tree.height]
    rcases h with h | h
    · have := ihl h; simp at this; omega
    · have := ihr h; simp at this; omega

/-- A recorded path, followed from the tree's root, leads to its leaf. -/
theorem Tree.Fits.follow_paths {node : Vector Node 511} {t : Tree} (h : t.Fits node) {q : List Bool}
    {e : NodeIndex × List Bool} (he : e ∈ t.paths q) : ∃ r, e.2 = q ++ r ∧ follow node t.root r = some e.1 := by
  induction t generalizing q with
  | leaf i => simp [Tree.paths] at he; subst he; exact ⟨[], by simp, rfl⟩
  | fork i l r ihl ihr =>
    obtain ⟨-, h2, h3, h4, -, -, -, h8, h9⟩ := h
    simp only [Tree.paths, List.mem_append] at he
    rcases he with he | he
    · obtain ⟨p, hp, hfol⟩ := ihl h8 he
      exact ⟨false :: p, by simp [hp], by rw [Tree.root_fork, follow_cons_compound h2, h3]; exact hfol⟩
    · obtain ⟨p, hp, hfol⟩ := ihr h9 he
      exact ⟨true :: p, by simp [hp], by rw [Tree.root_fork, follow_cons_compound h2, h4]; exact hfol⟩

/-- A path from the tree's root to a leaf is the recorded one. -/
theorem Tree.Fits.paths_of_follow {node : Vector Node 511} {t : Tree} (h : t.Fits node) (q : List Bool)
    {r : List Bool} {i : NodeIndex} (hr : follow node t.root r = some i) (hi : node[i].kind = .leaf) :
    (i, q ++ r) ∈ t.paths q := by
  induction t generalizing q r with
  | leaf j =>
    cases r with
    | nil => simp only [follow_nil, Option.some.injEq, Tree.root_leaf] at hr; simp [Tree.paths, hr]
    | cons b r => rw [Tree.root_leaf, follow_cons_leaf h.2] at hr; cases hr
  | fork j l u ihl ihu =>
    obtain ⟨-, h2, h3, h4, -, -, -, h8, h9⟩ := h
    cases r with
    | nil =>
      simp only [follow_nil, Option.some.injEq, Tree.root_fork] at hr
      subst hr
      exact absurd (h2.symm.trans hi) (by decide)
    | cons b r =>
      rw [Tree.root_fork, follow_cons_compound h2, h3, h4] at hr
      simp only [Tree.paths, List.mem_append]
      cases b with
      | false => exact .inl (by simpa using ihl h8 (q ++ [false]) (by simpa using hr))
      | true => exact .inr (by simpa using ihu h9 (q ++ [true]) (by simpa using hr))

/-! ## The store a walk leaves -/

theorem recordPath_other {t : CodeStore} {e : NodeIndex × List Bool} {i : Nat} (hi : i < 256) (h : e.1.val ≠ i) :
    (t.recordPath e).len[i] = t.len[i] ∧ (t.recordPath e).code[i] = t.code[i] := by
  unfold CodeStore.recordPath CodeStore.record
  split <;> simp [Vector.getElem_set_ne, h]

theorem recordPath_self {t : CodeStore} {e : NodeIndex × List Bool} (h : e.1.val < 256) :
    (t.recordPath e).len[e.1.val] = BitVec.ofNat 8 e.2.length ∧ (t.recordPath e).code[e.1.val] = pathBits e.2 := by
  unfold CodeStore.recordPath CodeStore.record
  simp [h]

theorem foldl_recordPath_other (es : List (NodeIndex × List Bool)) {t : CodeStore} {i : Nat} (hi : i < 256)
    (h : ∀ e ∈ es, e.1.val ≠ i) :
    (es.foldl CodeStore.recordPath t).len[i] = t.len[i] ∧ (es.foldl CodeStore.recordPath t).code[i] = t.code[i] := by
  induction es generalizing t with
  | nil => simp
  | cons e es ih =>
    have he := recordPath_other (t := t) hi (h e (by simp))
    have := ih (t := t.recordPath e) fun e' he' => h e' (by simp [he'])
    simp only [List.foldl_cons]
    exact ⟨this.1.trans he.1, this.2.trans he.2⟩

/-- With every leaf recorded once, the store holds each leaf's own path. -/
theorem foldl_recordPath_mem {es : List (NodeIndex × List Bool)} (hnd : (es.map Prod.fst).Nodup) {t : CodeStore}
    {e : NodeIndex × List Bool} (he : e ∈ es) (hlt : e.1.val < 256) :
    (es.foldl CodeStore.recordPath t).len[e.1.val] = BitVec.ofNat 8 e.2.length ∧
      (es.foldl CodeStore.recordPath t).code[e.1.val] = pathBits e.2 := by
  induction es generalizing t with
  | nil => simp at he
  | cons a es ih =>
    simp only [List.map_cons, List.nodup_cons, List.mem_map, not_exists, not_and] at hnd
    simp only [List.foldl_cons]
    rcases List.mem_cons.1 he with rfl | he
    · have := foldl_recordPath_other es (t := t.recordPath e) hlt fun e' he' h => hnd.1 e' he' (Fin.ext h)
      have hs := recordPath_self (t := t) hlt
      exact ⟨this.1.trans hs.1, this.2.trans hs.2⟩
    · exact ih hnd.2 he

/-- The code table of a built tree: every symbol has one path from the root to its leaf, of 1 to 255 edges, and the
store holds it. -/
theorem buildStore_symbol (freq : Vector Freq 256) (prior : Vector Node 511) (store : CodeStore) (sym : Byte) :
    ∃ p : List Bool, 1 ≤ p.length ∧ p.length ≤ 255 ∧
      follow (buildArena freq prior) Config.root p = some (leafIndex sym) ∧
      (∀ r, follow (buildArena freq prior) Config.root r = some (leafIndex sym) → r = p) ∧
      (buildStore (buildArena freq prior) store).len[symIndex sym] = BitVec.ofNat 8 p.length ∧
      (buildStore (buildArena freq prior) store).code[symIndex sym] = pathBits p := by
  obtain ⟨t, hroot, hfit, hperm⟩ := buildArena_tree freq prior
  have hnd : t.leaves.Nodup := (hperm.nodup_iff.2 (List.nodup_finRange 511)).sublist t.leaves_sublist_nodes
  have hlt : (leafIndex sym).val < 256 := sym.isLt
  have hmem : leafIndex sym ∈ t.leaves := (hfit.mem_leaves (hperm.mem_iff.2 (List.mem_finRange _))).2 hlt
  rw [← t.paths_keys []] at hmem hnd
  obtain ⟨e, he, hei⟩ := List.mem_map.1 hmem
  have hheight := hfit.height_le
  rw [hroot] at hheight
  have hroot510 : Config.root.val = 510 := rfl
  have hlen := Tree.paths_length he
  obtain ⟨r, hr, hfol⟩ := hfit.follow_paths he
  simp only [List.nil_append] at hr
  have hstore : buildStore (buildArena freq prior) store = (t.paths []).foldl CodeStore.recordPath store := by
    have := walk_tree hfit (fuel := 511) (by omega) [] store
    rw [hroot] at this
    exact this
  have hleaf : (buildArena freq prior)[leafIndex sym].kind = .leaf := by
    rw [buildArena_kind]; simp [hlt]
  have hnil : e.2 ≠ [] := by
    intro h0
    rw [hr] at h0
    subst h0
    simp only [follow, Option.some.injEq] at hfol
    rw [hroot, hei] at hfol
    rw [← hfol] at hlt
    exact absurd hlt (by decide)
  refine ⟨e.2, List.length_pos_iff.2 hnil, by simp at hlen; omega, ?_, ?_, ?_⟩
  · rw [hr, ← hroot, hfol, hei]
  · intro u hu
    rw [← hroot] at hu
    have h1 := hfit.paths_of_follow [] hu hleaf
    simp only [List.nil_append] at h1
    have := (List.nodup_map_iff_inj_on (hnd.of_map _)).1 hnd _ h1 _ he (by simp [hei])
    exact congrArg Prod.snd this
  · have := foldl_recordPath_mem hnd (t := store) he (by rw [hei]; exact hlt)
    rw [hstore]
    simpa [hei, leafIndex, symIndex] using this

end Sys2Proof.Machine
end

