-- ==== Sys2Proof/Laws/Decode.lean ====
section
/-! SUPPORT. The fields of a packed word, the opcode map read both ways, and the words carried as bytes. -/

namespace Sys2Proof

/-! ## Values placed in a word -/

@[simp] theorem getLsbD_place {n : Nat} (v : BitVec n) (lo i : Nat) :
    (place v lo).getLsbD i = (decide (i < 64) && (decide (lo ≤ i) && v.getLsbD (i - lo))) := by
  unfold place
  by_cases h : i < 64
  · by_cases hl : i < lo
    · simp [h, hl]
    · simp [h, hl, Nat.le_of_not_lt hl]
  · simp [h, BitVec.getLsbD_of_ge _ i (Nat.le_of_not_lt h)]

@[simp] theorem getElem_place {n : Nat} (v : BitVec n) (lo i : Nat) (h : i < 64) :
    (place v lo)[i] = (decide (lo ≤ i) && v.getLsbD (i - lo)) := by
  rw [← BitVec.getLsbD_eq_getElem h, getLsbD_place]; simp [h]

/-! ## The command word (R70) -/

@[simp] theorem opcField_packFields (opc sym : Byte) (idx : BitVec 16) (arg : Freq) :
    opcField (packFields opc sym idx arg) = opc := by
  refine BitVec.eq_of_getLsbD_eq fun i hi => ?_
  have h : i < 64 ∧ ¬ 8 ≤ i ∧ ¬ 16 ≤ i ∧ ¬ 32 ≤ i := by omega
  simp [opcField, packFields, h, hi]

@[simp] theorem symField_packFields (opc sym : Byte) (idx : BitVec 16) (arg : Freq) :
    symField (packFields opc sym idx arg) = sym := by
  refine BitVec.eq_of_getLsbD_eq fun i hi => ?_
  have h : 8 + i < 64 ∧ 8 ≤ 8 + i ∧ ¬ 16 ≤ 8 + i ∧ ¬ 32 ≤ 8 + i := by omega
  simp [symField, packFields, h, hi]

@[simp] theorem idxField_packFields (opc sym : Byte) (idx : BitVec 16) (arg : Freq) :
    idxField (packFields opc sym idx arg) = idx := by
  refine BitVec.eq_of_getLsbD_eq fun i hi => ?_
  have h : 16 + i < 64 ∧ 8 ≤ 16 + i ∧ 8 ≤ 16 + i - 8 ∧ ¬ 32 ≤ 16 + i := by omega
  simp [idxField, packFields, h, hi]

@[simp] theorem argField_packFields (opc sym : Byte) (idx : BitVec 16) (arg : Freq) :
    argField (packFields opc sym idx arg) = arg := by
  refine BitVec.eq_of_getLsbD_eq fun i hi => ?_
  have h : 32 + i < 64 ∧ 8 ≤ 32 + i ∧ 16 ≤ 32 + i ∧ 8 ≤ 32 + i - 8 ∧ 16 ≤ 32 + i - 16 := by omega
  simp [argField, packFields, h, hi]

/-- A word is its four fields (R70). -/
theorem packFields_fields (w : Word) : packFields (opcField w) (symField w) (idxField w) (argField w) = w := by
  refine BitVec.eq_of_getLsbD_eq fun i hi => ?_
  simp only [packFields, opcField, symField, idxField, argField, BitVec.getLsbD_or, getLsbD_place,
    BitVec.getLsbD_extractLsb', hi, decide_true, Bool.true_and]
  by_cases h8 : 8 ≤ i
  · by_cases h16 : 16 ≤ i
    · by_cases h32 : 32 ≤ i
      · have : 32 + (i - 32) = i ∧ i - 32 < 32 ∧ ¬ i - 16 < 16 ∧ ¬ i - 8 < 8 ∧ ¬ i < 8 := by omega
        simp [*]
      · have : 16 + (i - 16) = i ∧ i - 16 < 16 ∧ ¬ i - 8 < 8 ∧ ¬ i < 8 := by omega
        simp [*]
    · have : 8 + (i - 8) = i ∧ i - 8 < 8 ∧ ¬ 32 ≤ i ∧ ¬ i < 8 := by omega
      simp [*]
  · have : i < 8 ∧ ¬ 16 ≤ i ∧ ¬ 32 ≤ i := by omega
    simp [*]

/-! ## The opcode map (R72) -/

@[simp] theorem Opcode.ofByte?_toByte (o : Opcode) : Opcode.ofByte? o.toByte = some o := by
  cases o <;> decide

theorem Opcode.toByte_of_ofByte? {b : Byte} {o : Opcode} (h : Opcode.ofByte? b = some o) : o.toByte = b := by
  have := List.find?_some h
  simpa using this

/-! ## Words carried as bytes (R52) -/

theorem transportBytes_eq (w : Word) :
    transportBytes w = [w.extractLsb' 0 8, w.extractLsb' 8 8, w.extractLsb' 16 8, w.extractLsb' 24 8,
      w.extractLsb' 32 8, w.extractLsb' 40 8, w.extractLsb' 48 8, w.extractLsb' 56 8] := rfl

end Sys2Proof
end

