-- ==== Sys2Proof/Laws/Exec.lean ====
section
/-! SUPPORT. Everything a command can do, said once: `exec` answers a next state exactly where `Effect` holds. -/

namespace Sys2Proof.Machine

/-- What a command that completes has done, with the guards it passed. -/
inductive Effect : Instr → State → State → Prop where
  | badOperand {i s} : i.wellFormed = false → Effect i s (s.errorEntry .badOperand i.opcode.toByte)
  | badState {i s} : i.wellFormed = true → badStateWhen s i → Effect i s (s.errorEntry .badState i.opcode.toByte)
  | zeroFreq {s} : s.treeValid = false → hasZeroFreq s.freq = true →
      Effect .buildTree s (s.errorEntry .zeroFreq Opcode.buildTree.toByte)
  | malformedSymbol {s ch} : s.decState = .active → bitOfChar? ch = none →
      Effect (.decChar ch) s (s.abortDecode.errorEntry .malformedSymbol Opcode.decChar.toByte)
  | malformedEos {s} : s.decState = .active →
      Effect .decEos s (s.abortDecode.errorEntry .malformedEos Opcode.decEos.toByte)
  | nop {s} : Effect .nop s (s.respond 0)
  | softReset {s} : Effect .softReset s (s.applyReset.respond 0)
  | getStatus {s} : Effect .getStatus s (s.respond s.statusWord)
  | clearErr {s} : Effect .clearErr s (s.clearCapture.respond 0)
  | freqWrite {s sym f} : s.treeValid = false → Effect (.freqWrite sym f) s ((s.writeFreq sym f).respond 0)
  | freqRead {s sym} : Effect (.freqRead sym) s (s.respond ((s.readFreq sym).setWidth 64))
  | buildTree {s arena} : s.treeValid = false → hasZeroFreq s.freq = false → arena = buildArena s.freq s.node →
      Effect .buildTree s ({ s with node := arena, treeValid := true }.respond (arena[Config.root].freq.setWidth 64))
  | nodeRead {s idx i} : nodeIndex? idx = some i → s.treeValid = true →
      Effect (.nodeRead idx) s (s.respond (packNode (s.readNode i)))
  | buildTable {s st} : s.treeValid = true → s.tableValid = false → st = buildStore s.node { len := s.len, code := s.code } →
      Effect .buildTable s ({ s with len := st.len, code := st.code, tableValid := true }.respond (packMinMax st.len))
  | codeLenRead {s sym} : s.tableValid = true → Effect (.codeLenRead sym) s (s.respond ((s.readLen sym).setWidth 64))
  | codeBitsRead {s sym idx w} : window? idx = some w → s.tableValid = true →
      Effect (.codeBitsRead sym idx) s (s.respond ((codeWindow (s.readLen sym) (s.readCode sym) w).setWidth 64))
  | encStart {s} : s.tableValid = true → s.encState = .idle →
      Effect .encStart s ({ s with encState := .active, sentInData := false }.respond 0)
  | encSym {s sym} : s.encState = .active → roomFor s.encRoom (s.readLen sym).toNat = true →
      Effect (.encSym sym) s ({ s with
        encOut := s.encOut ++ s.codeChars sym
        encRoom := roomAfter s.encRoom (s.readLen sym).toNat
        sentInData := s.sentInData || sym == Config.sentinel }.respond ((s.readLen sym).setWidth 64))
  | encEnd {s} : s.encState = .active → roomFor s.encRoom (s.readLen Config.sentinel).toNat = true →
      Effect .encEnd s ({ s with
        encOut := s.encOut ++ s.codeChars Config.sentinel
        encRoom := roomAfter s.encRoom (s.readLen Config.sentinel).toNat
        encState := .idle }.respond ((s.readLen Config.sentinel).setWidth 64))
  | decStart {s} : s.treeValid = true → s.decState ≠ .active →
      Effect .decStart s ({ s with decState := .active, decCur := Config.root }.respond 0)
  | decStep {s ch b n} : s.decState = .active → bitOfChar? ch = some b → n = s.decChild b → s.node[n].kind = .compound →
      Effect (.decChar ch) s ({ s with decCur := n }.respond (packStep n))
  | decSentinel {s ch b n} : s.decState = .active → bitOfChar? ch = some b → n = s.decChild b → s.node[n].kind = .leaf →
      n = sentinelNode →
      Effect (.decChar ch) s ({ s with decCur := Config.root, decState := .done }.respond (packLeaf n true))
  | decLeaf {s ch b n} : s.decState = .active → bitOfChar? ch = some b → n = s.decChild b → s.node[n].kind = .leaf →
      n ≠ sentinelNode → roomFor s.decRoom 1 = true →
      Effect (.decChar ch) s ({ s with
        decOut := s.decOut ++ [BitVec.ofNat 8 n.val]
        decRoom := roomAfter s.decRoom 1
        decCur := Config.root }.respond (packLeaf n false))
  | decEos {s} : s.decState = .done → Effect .decEos s ({ s with decState := .idle }.respond 0)

/-- When a command hangs: it must emit into a port that never accepts what it emits (R235). -/
inductive Hangs : Instr → State → Prop where
  | encSym {s sym} : s.encState = .active → roomFor s.encRoom (s.readLen sym).toNat = false → Hangs (.encSym sym) s
  | encEnd {s} : s.encState = .active → roomFor s.encRoom (s.readLen Config.sentinel).toNat = false → Hangs .encEnd s
  | decChar {s ch b n} : s.decState = .active → bitOfChar? ch = some b → n = s.decChild b → s.node[n].kind = .leaf →
      n ≠ sentinelNode → roomFor s.decRoom 1 = false → Hangs (.decChar ch) s

@[simp] theorem codeChars_length (s : State) (sym : Byte) : (s.codeChars sym).length = (s.readLen sym).toNat := by
  simp [State.codeChars]

/-- The two outcomes of a command: it has one effect, or it hangs. -/
theorem exec_cases (i : Instr) (s : State) :
    (∃ t, exec i s = .next t ∧ Effect i s t) ∨ (exec i s = .fault .outputHang ∧ Hangs i s) := by
  cases i with
  | nop => exact .inl ⟨_, rfl, .nop⟩
  | softReset => exact .inl ⟨_, rfl, .softReset⟩
  | getStatus => exact .inl ⟨_, rfl, .getStatus⟩
  | clearErr => exact .inl ⟨_, rfl, .clearErr⟩
  | freqRead sym => exact .inl ⟨_, rfl, .freqRead⟩
  | freqWrite sym f =>
    simp only [exec, execFreqWrite]
    split
    · exact .inl ⟨_, rfl, .badState rfl ‹_›⟩
    · exact .inl ⟨_, rfl, .freqWrite (by simp_all)⟩
  | buildTree =>
    simp only [exec, execBuildTree]
    split
    · exact .inl ⟨_, rfl, .badState rfl ‹_›⟩
    · split
      · exact .inl ⟨_, rfl, .zeroFreq (by simp_all) ‹_›⟩
      · exact .inl ⟨_, rfl, .buildTree (by simp_all) (by simp_all) rfl⟩
  | nodeRead idx =>
    simp only [exec, execNodeRead]
    split
    · rename_i h
      rw [nodeIndex?_eq_none] at h
      exact .inl ⟨_, rfl, .badOperand (by simpa [Instr.wellFormed] using h)⟩
    · rename_i i h
      split
      · exact .inl ⟨_, rfl, .nodeRead h ‹_›⟩
      · rw [nodeIndex?_eq_some] at h
        have := i.isLt
        exact .inl ⟨_, rfl, .badState (by simp only [Instr.wellFormed, decide_eq_true_eq]; omega)
          (by simp_all [badStateWhen])⟩
  | buildTable =>
    simp only [exec, execBuildTable]
    split
    · exact .inl ⟨_, rfl, .badState rfl (by simp_all [badStateWhen])⟩
    · rename_i h
      simp only [Bool.or_eq_true, Bool.not_eq_true', not_or, Bool.not_eq_false, Bool.not_eq_true] at h
      exact .inl ⟨_, rfl, .buildTable h.1 h.2 rfl⟩
  | codeLenRead sym =>
    simp only [exec, execCodeLenRead]
    split
    · exact .inl ⟨_, rfl, .codeLenRead ‹_›⟩
    · exact .inl ⟨_, rfl, .badState rfl (by simp_all [badStateWhen])⟩
  | codeBitsRead sym idx =>
    simp only [exec, execCodeBitsRead]
    split
    · rename_i h
      rw [window?_eq_none] at h
      exact .inl ⟨_, rfl, .badOperand (by simpa [Instr.wellFormed] using h)⟩
    · rename_i w h
      split
      · exact .inl ⟨_, rfl, .codeBitsRead h ‹_›⟩
      · rw [window?_eq_some] at h
        have := w.isLt
        exact .inl ⟨_, rfl, .badState (by simp only [Instr.wellFormed, decide_eq_true_eq]; omega)
          (by simp_all [badStateWhen])⟩
  | encStart =>
    simp only [exec, execEncStart]
    split
    · exact .inl ⟨_, rfl, .badState rfl (by simp_all [badStateWhen])⟩
    · rename_i h
      have : s.tableValid = true ∧ s.encState = .idle := by cases h' : s.encState <;> simp_all
      exact .inl ⟨_, rfl, .encStart this.1 this.2⟩
  | encSym sym =>
    simp only [exec, execEncSym]
    split
    · exact .inl ⟨_, rfl, .badState rfl (by simp_all [badStateWhen])⟩
    · have ha : s.encState = .active := by simp_all
      split
      · rename_i h
        rw [emitEnc?_eq_none, codeChars_length] at h
        exact .inr ⟨rfl, .encSym ha h⟩
      · rename_i t h
        rw [emitEnc?_eq_some, codeChars_length] at h
        obtain ⟨h, rfl⟩ := h
        exact .inl ⟨_, rfl, .encSym ha h⟩
  | encEnd =>
    simp only [exec, execEncEnd]
    split
    · exact .inl ⟨_, rfl, .badState rfl (by simp_all [badStateWhen])⟩
    · have ha : s.encState = .active := by simp_all
      split
      · rename_i h
        rw [emitEnc?_eq_none, codeChars_length] at h
        exact .inr ⟨rfl, .encEnd ha h⟩
      · rename_i t h
        rw [emitEnc?_eq_some, codeChars_length] at h
        obtain ⟨h, rfl⟩ := h
        exact .inl ⟨_, rfl, .encEnd ha h⟩
  | decStart =>
    simp only [exec, execDecStart]
    split
    · exact .inl ⟨_, rfl, .badState rfl (by simp_all [badStateWhen])⟩
    · rename_i h
      simp only [Bool.or_eq_true, Bool.not_eq_true', beq_iff_eq, not_or, Bool.not_eq_false] at h
      exact .inl ⟨_, rfl, .decStart h.1 h.2⟩
  | decChar ch =>
    simp only [exec, execDecChar]
    split
    · exact .inl ⟨_, rfl, .badState rfl (by simp_all [badStateWhen])⟩
    · have ha : s.decState = .active := by simp_all
      split
      · exact .inl ⟨_, rfl, .malformedSymbol ha ‹_›⟩
      · rename_i b hb
        simp only [State.decArrive]
        split
        · exact .inl ⟨_, rfl, .decStep ha hb rfl ‹_›⟩
        · split
          · exact .inl ⟨_, rfl, .decSentinel ha hb rfl ‹_› ‹_›⟩
          · split
            · rename_i h
              exact .inr ⟨rfl, .decChar ha hb rfl ‹_› ‹_› (emitDec?_eq_none.1 h)⟩
            · rename_i t h
              obtain ⟨hr, rfl⟩ := emitDec?_eq_some.1 h
              exact .inl ⟨_, rfl, .decLeaf ha hb rfl ‹_› ‹_› hr⟩
  | decEos =>
    simp only [exec, execDecEos]
    split
    · exact .inl ⟨_, rfl, .badState rfl ‹_›⟩
    · exact .inl ⟨_, rfl, .malformedEos ‹_›⟩
    · exact .inl ⟨_, rfl, .decEos ‹_›⟩

/-- A command that answers a next state has had one of its effects. -/
theorem effect_of_exec {i : Instr} {s t : State} (h : exec i s = .next t) : Effect i s t := by
  rcases exec_cases i s with ⟨u, hu, he⟩ | ⟨hu, -⟩
  · rw [h] at hu; cases hu; exact he
  · rw [h] at hu; cases hu

/-- A command that hangs was to emit into a full port. -/
theorem hangs_of_exec {i : Instr} {s : State} {e : Fault} (h : exec i s = .fault e) : Hangs i s := by
  rcases exec_cases i s with ⟨u, hu, -⟩ | ⟨-, hh⟩
  · rw [h] at hu; cases hu
  · exact hh

/-- A host that consumes its streams makes no command hang (R235). -/
theorem exec_next_of_drained (i : Instr) {s : State} (he : s.encRoom = none) (hd : s.decRoom = none) :
    ∃ t, exec i s = .next t ∧ Effect i s t := by
  rcases exec_cases i s with h | ⟨-, h⟩
  · exact h
  · cases h <;> simp_all

/-- A command not allowed in the state raises BAD_STATE, once its operand is in range (R201, R203). -/
theorem exec_badState {i : Instr} {s : State} (h : badStateWhen s i) (hw : i.wellFormed = true) :
    exec i s = s.raise .badState i.opcode := by
  cases i <;> simp only [badStateWhen] at h <;>
    simp only [exec, execFreqWrite, execBuildTree, execNodeRead, execBuildTable, execCodeLenRead, execCodeBitsRead,
      execEncStart, execEncSym, execEncEnd, execDecStart, execDecChar, execDecEos, h]
  case nodeRead idx =>
    simp only [Instr.wellFormed, decide_eq_true_eq] at hw
    rw [nodeIndex?_eq_some.2 (show idx.toNat = (⟨idx.toNat, by omega⟩ : NodeIndex).val from rfl)]; rfl
  case codeBitsRead sym idx =>
    simp only [Instr.wellFormed, decide_eq_true_eq] at hw
    rw [window?_eq_some.2 (show idx.toNat = (⟨idx.toNat, by omega⟩ : Fin 8).val from rfl)]; rfl
  all_goals first | rfl | (rcases h with h | h <;> simp [h] <;> rfl) | (simp [h]; rfl)

/-- A command whose effect's guards hold has that effect. -/
theorem exec_of_effect {i : Instr} {s t : State} (h : Effect i s t) : exec i s = .next t := by
  cases h with
  | badOperand h =>
    cases i <;> simp [Instr.wellFormed] at h
    · simp [exec, execNodeRead, nodeIndex?_eq_none.2 h]; rfl
    · simp [exec, execCodeBitsRead, window?_eq_none.2 h]; rfl
  | badState h h' => rw [exec_badState h' h]; rfl
  | zeroFreq h h' => simp [exec, execBuildTree, h, h']; rfl
  | malformedSymbol h h' => simp [exec, execDecChar, h, h']; rfl
  | malformedEos h => simp [exec, execDecEos, h]; rfl
  | getStatus => rfl
  | nop => rfl
  | softReset => rfl
  | clearErr => rfl
  | freqWrite h => simp [exec, execFreqWrite, h]
  | freqRead => rfl
  | buildTree h h' h'' => simp [exec, execBuildTree, h, h', h'']
  | nodeRead h h' => simp [exec, execNodeRead, h, h']
  | buildTable h h' h'' => simp [exec, execBuildTable, h, h', h'']
  | codeLenRead h => simp [exec, execCodeLenRead, h]
  | codeBitsRead h h' => simp [exec, execCodeBitsRead, h, h']
  | encStart h h' => simp [exec, execEncStart, h, h']
  | encSym h h' => simp [exec, execEncSym, h, State.emitEnc?, h']
  | encEnd h h' => simp [exec, execEncEnd, h, State.emitEnc?, h']
  | decStart h h' => simp [exec, execDecStart, h, h']
  | decStep a b c d => subst c; simp [exec, execDecChar, a, b, State.decArrive, State.readNode]; simp at d; simp [d]
  | decSentinel a b c d e => subst c; simp only [exec, execDecChar, a, b, State.decArrive, State.readNode, d, if_pos e]; rfl
  | decLeaf a b c d e f =>
    subst c; simp only [exec, execDecChar, a, b, State.decArrive, State.readNode, d, if_neg e, State.emitDec?, f]
    rfl
  | decEos a => simp [exec, execDecEos, a]

/-- A command that would hang does. -/
theorem exec_of_hangs {i : Instr} {s : State} (h : Hangs i s) : exec i s = .fault .outputHang := by
  cases h with
  | encSym a b => simp [exec, execEncSym, a, State.emitEnc?, b]
  | encEnd a b => simp [exec, execEncEnd, a, State.emitEnc?, b]
  | decChar a b c d e f =>
    subst c; simp only [exec, execDecChar, a, b, State.decArrive, State.readNode, d, if_neg e, State.emitDec?, f]
    rfl

/-- The effects are exactly the next states. -/
theorem exec_eq_next_iff {i : Instr} {s t : State} : exec i s = .next t ↔ Effect i s t :=
  ⟨effect_of_exec, exec_of_effect⟩

end Sys2Proof.Machine
end

