-- ==== Sys2Proof/Laws/PerInstr.lean ====
section
/-! SUPPORT. Per-instruction statements about the syntax: the opcode and the encoded fields of a command give it back. -/

namespace Sys2Proof.Laws.FieldsRebuild

/-- The encoded word of a command carries its opcode byte, zeros in the fields R72 marks `0`, and its operands. -/
def Statement (i : Instr) : Prop :=
  opcField (encode i) = i.opcode.toByte ∧
  i.opcode.unusedZero (symField (encode i)) (idxField (encode i)) (argField (encode i)) = true ∧
  i.opcode.build (symField (encode i)) (idxField (encode i)) (argField (encode i)) = i

theorem nop : Statement .nop := by unfold Statement; decide
theorem softReset : Statement .softReset := by unfold Statement; decide
theorem getStatus : Statement .getStatus := by unfold Statement; decide
theorem clearErr : Statement .clearErr := by unfold Statement; decide
theorem freqWrite (sym : Byte) (arg : Freq) : Statement (.freqWrite sym arg) := by
  simp [Statement, encode, Instr.opcode, Opcode.toByte, Opcode.unusedZero, Opcode.usesSym, Opcode.usesArg, Opcode.build]
theorem freqRead (sym : Byte) : Statement (.freqRead sym) := by
  simp [Statement, encode, Instr.opcode, Opcode.toByte, Opcode.unusedZero, Opcode.usesSym, Opcode.build]
theorem buildTree : Statement .buildTree := by unfold Statement; decide
theorem nodeRead (idx : BitVec 16) : Statement (.nodeRead idx) := by
  simp [Statement, encode, Instr.opcode, Opcode.toByte, Opcode.unusedZero, Opcode.usesIdx, Opcode.build]
theorem buildTable : Statement .buildTable := by unfold Statement; decide
theorem codeLenRead (sym : Byte) : Statement (.codeLenRead sym) := by
  simp [Statement, encode, Instr.opcode, Opcode.toByte, Opcode.unusedZero, Opcode.usesSym, Opcode.build]
theorem codeBitsRead (sym : Byte) (idx : BitVec 16) : Statement (.codeBitsRead sym idx) := by
  simp [Statement, encode, Instr.opcode, Opcode.toByte, Opcode.unusedZero, Opcode.usesSym, Opcode.usesIdx, Opcode.build]
theorem encStart : Statement .encStart := by unfold Statement; decide
theorem encSym (sym : Byte) : Statement (.encSym sym) := by
  simp [Statement, encode, Instr.opcode, Opcode.toByte, Opcode.unusedZero, Opcode.usesSym, Opcode.build]
theorem encEnd : Statement .encEnd := by unfold Statement; decide
theorem decStart : Statement .decStart := by unfold Statement; decide
theorem decChar (ch : Byte) : Statement (.decChar ch) := by
  simp [Statement, encode, Instr.opcode, Opcode.toByte, Opcode.unusedZero, Opcode.usesSym, Opcode.build]
theorem decEos : Statement .decEos := by unfold Statement; decide

end Sys2Proof.Laws.FieldsRebuild
end

