-- ==== Sys2Proof/Tests/Slice0.lean ====
section
/-! SUPPORT. Tests of the model against the words and values spec/ writes out, and a witness for the hypotheses of every
statement. V-…, E…, T-… name the vectors and tables of spec/95_test_vectors.md. -/

namespace Sys2Proof.Tests

open Sys2Proof.Machine Sys2Proof.Claims

/-! ## Decoding: every constructor from a word written out from the table of R72 -/

theorem test_decode_nop : decode 0x0000000000000000 = .accept .nop := by decide
theorem test_decode_softReset : decode 0x0000000000000001 = .accept .softReset := by decide
theorem test_decode_getStatus : decode 0x0000000000000002 = .accept .getStatus := by decide
theorem test_decode_clearErr : decode 0x0000000000000003 = .accept .clearErr := by decide
/-- SYM = 0xA5 in [15:8], ARG = 0x12345678 in [63:32]. -/
theorem test_decode_freqWrite : decode 0x123456780000A510 = .accept (.freqWrite 0xA5 0x12345678) := by decide
theorem test_decode_freqRead : decode 0x0000000000004111 = .accept (.freqRead 65) := by decide
theorem test_decode_buildTree : decode 0x0000000000000020 = .accept .buildTree := by decide
/-- IDX = 0x1234 in [31:16]. -/
theorem test_decode_nodeRead : decode 0x0000000012340021 = .accept (.nodeRead 0x1234) := by decide
theorem test_decode_buildTable : decode 0x0000000000000030 = .accept .buildTable := by decide
theorem test_decode_codeLenRead : decode 0x000000000000F931 = .accept (.codeLenRead 249) := by decide
/-- SYM = 0xA5 in [15:8], IDX = 0x1234 in [31:16]. -/
theorem test_decode_codeBitsRead : decode 0x000000001234A532 = .accept (.codeBitsRead 0xA5 0x1234) := by decide
theorem test_decode_encStart : decode 0x0000000000000040 = .accept .encStart := by decide
theorem test_decode_encSym : decode 0x0000000000004141 = .accept (.encSym 65) := by decide
theorem test_decode_encEnd : decode 0x0000000000000042 = .accept .encEnd := by decide
theorem test_decode_decStart : decode 0x0000000000000050 = .accept .decStart := by decide
theorem test_decode_decChar : decode 0x0000000000003151 = .accept (.decChar 0x31) := by decide
theorem test_decode_decEos : decode 0x0000000000000052 = .accept .decEos := by decide

/-- V-CT-4 (0xFF is reserved), V-CT-2, V-FQ-5, V-FQ-6 and V-EN-12 (a field that must be zero is not). -/
theorem test_decode_illegal :
    decode 0x00000000000000FF = .reject .reservedOpcode ∧ decode 0x0000000000000100 = .reject .unusedField ∧
    decode 0x0000000700010510 = .reject .unusedField ∧ decode 0x0000000100000511 = .reject .unusedField ∧
    decode 0x0000000000010741 = .reject .unusedField := by decide

/-- R52: the byte at the lowest position of the transport carries bits [7:0]. -/
theorem test_decode_bytes :
    decodeBytes [0x10, 0x41, 0x00, 0x00, 0x03, 0x00, 0x00, 0x00, 0x77] = .accept (.freqWrite 65 3, [0x77]) ∧
    decodeBytes [0x10, 0x41, 0x00, 0x00, 0x03, 0x00, 0x00] = .reject .truncated := by decide

theorem test_decode_table_word :
    decodeTableWord 64 0x0000000001FE0021 = some (.nodeRead 510) ∧ decodeTableWord 64 0x100 = none := by decide

/-! ## WellFormed: an ill-formed term for each check, which the check refuses (R74) -/

theorem smoke_nodeRead : (Instr.nodeRead 511).wellFormed = false ∧ (Instr.nodeRead 510).wellFormed = true := by decide
theorem smoke_codeBitsRead :
    (Instr.codeBitsRead 4 8).wellFormed = false ∧ (Instr.codeBitsRead 4 7).wellFormed = true := by decide

/-! ## The assembler's examples (R78) -/

theorem test_assembler_numbers :
    assemble? "FREQ_WRITE 65, 3" = some (.freqWrite 65 3) ∧ assemble? "NODE_READ 510" = some (.nodeRead 510) ∧
    assemble? "CODE_BITS_READ 4, 1 ; window 1" = some (.codeBitsRead 4 1) ∧ assemble? "ENC_SYM 0x41" = some (.encSym 65) ∧
    assemble? "DEC_CHAR '1'" = some (.decChar 0x31) := by decide +kernel

/-- A value that does not fit, an omitted field, a field too many. -/
theorem test_assembler_refuses :
    assemble? "FREQ_READ 256" = none ∧ assemble? "FREQ_WRITE 65" = none ∧ assemble? "NOP 1" = none := by decide +kernel

/-! ## Small states -/

/-- What the step answers to a command word in `s`. -/
def answer (s : State) (w : Word) : Option (ResultCode × Word) :=
  match step (s.issue w) with
  | .next t => t.lastResponse?.map fun r => (r.rc, r.data)
  | .fault _ => none
  | .refused _ => none

/-- The state after a command word; `s` where the step stops. -/
def after (s : State) (w : Word) : State := stateOr s (step (s.issue w))

/-- A compound of T-ONES as V-TB-1 describes it: node n has the children 2(n - 256) and 2(n - 256) + 1. -/
def onesFork (n : Nat) (f : NodeFreq) : Node :=
  { kind := .compound, freq := f, left := Fin.ofNat 511 (2 * (n - 256)), right := Fin.ofNat 511 (2 * (n - 256) + 1) }

/-- The records of T-ONES that the tests read: leaf 4, the path to it, nodes 256, 288 and 509. -/
def onesNode : Vector Node 511 :=
  ((((((((((((Vector.replicate 511 { kind := .leaf, freq := 0, left := 0, right := 0 }).set 4
    { kind := .leaf, freq := 1, left := 0, right := 0 }).set 256 (onesFork 256 2)).set 258 (onesFork 258 2)).set 288
    (onesFork 288 2)).set 385 (onesFork 385 4)).set 448 (onesFork 448 8)).set 480 (onesFork 480 16)).set 496
    (onesFork 496 32)).set 504 (onesFork 504 64)).set 508 (onesFork 508 128)).set 509 (onesFork 509 128)).set 510
    (onesFork 510 256)

/-- tree(T-ONES). -/
def treeOnes : State :=
  { State.reset with freq := Vector.replicate 256 1, node := onesNode, treeValid := true }

/-- The code of `s` under T-ONES (E2): the 8-bit numeral of `s`, most significant digit first. -/
def onesCode (s : Nat) : CodeBits := BitVec.ofFnLE fun i : Fin 255 => decide (i.val < 8) && s.testBit (7 - i.val)

/-- built(T-ONES), with the codes that the tests read. -/
def builtOnes : State :=
  { treeOnes with
    len := Vector.replicate 256 8
    code := ((((((Vector.replicate 256 0).set 1 (onesCode 1)).set 4 (onesCode 4)).set 7 (onesCode 7)).set 65
      (onesCode 65)).set 255 (onesCode 255))
    tableValid := true }

/-- built(T-ONES) with an encode operation open. -/
def encOnes : State := { builtOnes with encState := .active }

/-- tree(T-ONES) with a decode operation open at node `n`. -/
def decOnes (n : NodeIndex) : State := { treeOnes with decState := .active, decCur := n }

/-! ## One step each -/

/-- V-CT-2, V-CT-3. -/
theorem test_illegal_step :
    answer State.reset 0x100 = some (.illegalCmd, 0) ∧ (after State.reset 0x100).statusWord = 0x00000001FE000140 ∧
    (after State.reset 4).statusWord = 0x00000001FE040140 := by decide +kernel

/-- V-CT-7: the decoder stays ACTIVE at node 509. -/
theorem test_nop : answer (decOnes 509) 0 = some (.ok, 0) ∧
    (after { decOnes 509 with tableValid := true } 0).statusWord = 0x00000001FD00000B := by decide +kernel

/-- V-CT-10. -/
theorem test_softReset :
    answer { encOnes with encOut := [0x30] } 1 = some (.ok, 0) ∧ (after encOnes 1).statusWord = 0x00000001FE000000 ∧
    (after { encOnes with encOut := [0x30] } 1).encOut = [0x30] ∧ (after encOnes 1).readFreq 7 = 0 := by decide +kernel

/-- V-CT-5, V-EN-2. -/
theorem test_getStatus : answer State.reset 2 = some (.ok, 0x00000001FE000000) ∧
    answer encOnes 2 = some (.ok, 0x00000001FE000007) := by decide +kernel

/-- V-CT-8. -/
theorem test_clearErr : (after (after State.reset 0x100) 3).statusWord = 0x00000001FE000000 := by decide +kernel

/-- V-FQ-1, V-FQ-4, V-FQ-7. -/
theorem test_freqWrite :
    (after State.reset 0x0000000300004110).readFreq 65 = 3 ∧ (after State.reset 0xFFFFFFFF00000710).readFreq 7 = 0xFFFFFFFF ∧
    answer treeOnes 0x0000000900000710 = some (.badState, 0) := by decide +kernel

/-- V-FQ-2, V-FQ-3. -/
theorem test_freqRead : answer (after State.reset 0x0000000300004110) 0x4111 = some (.ok, 3) ∧
    answer State.reset 0x0411 = some (.ok, 0) := by decide +kernel

/-- V-TB-7, V-CT-9: ZERO_FREQ, and the first error is kept. -/
theorem test_buildTree_zeroFreq :
    answer State.reset 0x20 = some (.zeroFreq, 0) ∧ (after State.reset 0x20).statusWord = 0x00000001FE200440 ∧
    (after (after State.reset 0x100) 0x20).statusWord = 0x00000001FE000140 := by decide +kernel

/-- V-TB-2, merge m = 127: leaf 255 (freq 1) first, then compound 256 before the later compound of the same frequency. -/
theorem test_merge_tie :
    let leafOne : Node := { kind := .leaf, freq := 1, left := 0, right := 0 }
    let two : Node := { kind := .compound, freq := 2, left := 0, right := 1 }
    let b : Build :=
      { node := ((State.reset.node.set 255 leafOne).set 256 two).set 257 two, coll := [257, 256, 255], nextSeq := 383 }
    b.merge.node[383] = { kind := .compound, freq := 3, left := 255, right := 256 } ∧ b.merge.coll = [383, 257] ∧
      b.merge.nextSeq = 384 := by decide +kernel

/-- V-TB-4, merge m = 222: two leaves of equal frequency, the lower index first. -/
theorem test_merge_leaves :
    let leafFive : Node := { kind := .leaf, freq := 5, left := 0, right := 0 }
    let b : Build :=
      { node := (State.reset.node.set 20 leafFive).set 10 leafFive, coll := [20, 10], nextSeq := 478 }
    b.merge.node[478] = { kind := .compound, freq := 10, left := 10, right := 20 } := by decide +kernel

/-- V-TB-1: node 256 and leaf 4; V-TB-10, V-TB-11, V-TB-12. -/
theorem test_nodeRead :
    answer treeOnes 0x0000000001000021 = some (.ok, 0x0402000000000002) ∧ answer treeOnes 0x0000000000040021 = some (.ok, 1) ∧
    answer State.reset 0x0000000001FE0021 = some (.badState, 0) ∧
    answer State.reset 0x0000000001FF0021 = some (.badOperand, 0) := by decide +kernel

/-- V-TB-1: node 510; V-TB-12. -/
theorem test_nodeRead_root : answer treeOnes 0x0000000001FE0021 = some (.ok, 0x07FBFC0000000100) ∧
    answer treeOnes 0x00000000FFFF0021 = some (.badOperand, 0) := by decide +kernel

/-- R140 on a tree of three leaves: 65 is left of the root, 4 and 66 the children of its right child. -/
theorem test_walk :
    let node := (State.reset.node.set 509 { kind := .compound, freq := 2, left := 4, right := 66 }).set 510
      { kind := .compound, freq := 3, left := 65, right := 509 }
    let t := buildStore node { len := Vector.replicate 256 9, code := Vector.replicate 256 0 }
    t.len[65] = 1 ∧ t.len[4] = 2 ∧ t.len[66] = 2 ∧ t.len[0] = 9 ∧ t.code[65] = 0b0 ∧ t.code[4] = 0b01 ∧
      t.code[66] = 0b11 ∧ packMinMax t.len = 0x0901 := by decide +kernel

/-- V-CD-4, V-CD-5. -/
theorem test_buildTable_badState :
    answer State.reset 0x30 = some (.badState, 0) ∧ answer builtOnes 0x30 = some (.badState, 0) := by decide +kernel

/-- E3, V-CD-6. -/
theorem test_codeLenRead :
    answer builtOnes 0x4131 = some (.ok, 8) ∧ answer treeOnes 0x0331 = some (.badState, 0) := by decide +kernel

/-- V-CD-11 to V-CD-14. -/
theorem test_codeBitsRead :
    answer builtOnes 0x0132 = some (.ok, 0x80) ∧ answer builtOnes 0x0432 = some (.ok, 0x20) ∧
    answer builtOnes 0x4132 = some (.ok, 0x82) ∧ answer builtOnes 0xFF32 = some (.ok, 0xFF) := by decide +kernel

/-- R143 beyond the length (as V-CD-23, V-CD-24); V-CD-26. -/
theorem test_codeBitsRead_window :
    answer builtOnes 0x0000000000010432 = some (.ok, 0) ∧ answer builtOnes 0x0000000000070432 = some (.ok, 0) ∧
    answer State.reset 0x0000000000080332 = some (.badOperand, 0) := by decide +kernel

/-- V-EN-1, V-EN-2, V-EN-3. -/
theorem test_encStart :
    answer treeOnes 0x40 = some (.badState, 0) ∧ (after builtOnes 0x40).statusWord = 0x00000001FE000007 ∧
    (after encOnes 0x40).statusWord = 0x00000001FE400347 := by decide +kernel

/-- V-CT-10's `ENC_SYM 7`, and R161 for the sentinel as data. -/
theorem test_encSym :
    (after encOnes 0x0741).encOut = [0x30, 0x30, 0x30, 0x30, 0x30, 0x31, 0x31, 0x31] ∧ answer encOnes 0x0741 = some (.ok, 8) ∧
    (after encOnes 0x0741).sentInData = false ∧ (after encOnes 0x0441).sentInData = true := by decide +kernel

/-- V-EN-8. R235: with room for 7 bytes left in the port, a code of 8 hangs. -/
theorem test_encSym_stops :
    answer builtOnes 0x0141 = some (.badState, 0) ∧ answer { encOnes with encRoom := some 7 } 0x0741 = none := by
  decide +kernel

/-- V-EN-7, V-EN-9. -/
theorem test_encEnd :
    (after encOnes 0x42).encOut = [0x30, 0x30, 0x30, 0x30, 0x30, 0x31, 0x30, 0x30] ∧ answer encOnes 0x42 = some (.ok, 8) ∧
    (after encOnes 0x42).encState = .idle ∧ answer builtOnes 0x42 = some (.badState, 0) := by decide +kernel

/-- V-DE-1, V-DE-2, V-DE-3. -/
theorem test_decStart :
    answer State.reset 0x50 = some (.badState, 0) ∧ (after treeOnes 0x50).decState = .active ∧
    answer (decOnes 510) 0x50 = some (.badState, 0) := by decide +kernel

/-- V-DE-4, V-DE-5, V-DE-7, V-DE-13. -/
theorem test_decChar :
    answer (decOnes 510) 0x3051 = some (.ok, 0x01FC0000) ∧ (after (decOnes 510) 0x3151).decCur = 509 ∧
    answer (decOnes 508) 0x7851 = some (.malformedSymbol, 0) ∧ (after (decOnes 508) 0x7851).decCur = 510 ∧
    answer treeOnes 0x3051 = some (.badState, 0) := by decide +kernel

/-- R181 at the last edge of code(4) = 00000100 and code(65) = 01000001: nodes 258 = (4, 5) and 288 = (64, 65); V-DE-14. -/
theorem test_decChar_leaf :
    answer (decOnes 258) 0x3051 = some (.ok, 0x01FE0403) ∧ (after (decOnes 258) 0x3051).decState = .done ∧
    (after (decOnes 258) 0x3051).decOut = [] ∧ answer (decOnes 288) 0x3151 = some (.ok, 0x01FE4101) ∧
    (after (decOnes 288) 0x3151).decOut = [65] ∧
    answer { treeOnes with decState := .done } 0x3151 = some (.badState, 0) := by decide +kernel

/-- V-DE-11, V-DE-12, V-DE-15. -/
theorem test_decEos :
    answer (decOnes 510) 0x52 = some (.malformedEos, 0) ∧ (after (decOnes 508) 0x52).decState = .idle ∧
    answer treeOnes 0x52 = some (.badState, 0) ∧ answer { treeOnes with decState := .done } 0x52 = some (.ok, 0) := by
  decide +kernel

/-- R113 on the input of E1: 65 occurs three times, 66 once, 4 never. -/
theorem test_profile :
    profile [65, 65, 65, 66] 65 = 3 ∧ profile [65, 65, 65, 66] 66 = 1 ∧ profile [65, 65, 65, 66] 4 = 1 := by decide

/-- E2: decoding 00000100 emits nothing and completes. -/
theorem test_decode_empty :
    (stateOr State.reset (decodeAll [0x30, 0x30, 0x30, 0x30, 0x30, 0x31, 0x30, 0x30] builtOnes)).decOut = [] ∧
    (stateOr State.reset (decodeAll [0x30, 0x30, 0x30, 0x30, 0x30, 0x31, 0x30, 0x30] builtOnes)).lastFailed = false := by
  decide +kernel

/-- R79: `READ_CODE` of a 42-bit code reads windows 0 and 1, of a 32-bit code window 0, floor(31/32), alone. -/
theorem test_readCode :
    readCodeCmds 4 42 = [.codeLenRead 4, .codeBitsRead 4 0, .codeBitsRead 4 1] ∧
    readCodeCmds 4 32 = [.codeLenRead 4, .codeBitsRead 4 0] := by decide

/-- R231: hardware reset during `ENC_SYM 7`: no response, the reset status. -/
theorem test_cut_command :
    (stateOr treeOnes (step { encOnes with port := [.cutCommand 0x0741] })).responses = [] ∧
    (stateOr treeOnes (step { encOnes with port := [.cutCommand 0x0741] })).statusWord = 0x00000001FE000000 := by
  decide +kernel

/-- Every row of the table, operands zero, runs as the first command after reset. -/
theorem test_first_command :
    ([0x00, 0x01, 0x02, 0x03, 0x10, 0x11, 0x20, 0x21, 0x30, 0x31, 0x32, 0x40, 0x41, 0x42, 0x50, 0x51, 0x52].all fun w =>
      match step (State.reset.withFetchWord 64 w) with
      | .next t => t.responses.length == 1
      | .fault _ => false
      | .refused _ => false) = true := by decide +kernel

/-! ## Witnesses: a state and operands that meet each statement's hypotheses -/

/-- Every frequency 1. -/
def ones : State := { State.reset with freq := Vector.replicate 256 1 }

/-- The arena that the model builds from `ones`. -/
@[irreducible] def onesArena : Vector Node 511 := buildArena ones.freq ones.node

theorem onesArena_eq : onesArena = buildArena ones.freq ones.node := by unfold onesArena; rfl

/-- `ones` with the tree that the model builds. -/
def treed : State := { ones with node := onesArena, treeValid := true }

/-- The code store that the model builds from `treed`. -/
@[irreducible] def onesStore : CodeStore := buildStore treed.node { len := treed.len, code := treed.code }

theorem onesStore_eq : onesStore = buildStore treed.node { len := treed.len, code := treed.code } := by unfold onesStore; rfl

/-- `treed` with the code table that the model builds. -/
def tabled : State := { treed with len := onesStore.len, code := onesStore.code, tableValid := true }

/-- `treed` with a decode operation open at the root. -/
def decoding : State := { treed with decState := .active }

/-- A state of three codes: 65 is 0, 4 is 10, 66 is 11, with an encode operation open and `k` bytes of room. -/
def tight (k : Nat) : State :=
  { State.reset with
    len := ((Vector.replicate 256 9).set 65 1).set 4 2
    tableValid := true, encState := .active, encRoom := some k, decRoom := some k }

theorem ones_readFreq (sym : Byte) : ones.readFreq sym = 1 := by simp [ones, State.readFreq]

theorem ones_smoothed : smoothed ones := fun sym => by rw [ones_readFreq]; decide

theorem ones_hasZeroFreq : hasZeroFreq ones.freq = false := by decide +kernel

/-- BUILD_TREE runs on every state with the frequencies of `ones` and no tree. -/
theorem ones_builds (s : State) (hf : s.freq = ones.freq) (ht : s.treeValid = false) : ∃ t, exec .buildTree s = .next t := by
  obtain ⟨arena, h⟩ : ∃ arena, arena = buildArena s.freq s.node := ⟨_, rfl⟩
  exact ⟨_, exec_of_effect (.buildTree ht (by rw [hf]; exact ones_hasZeroFreq) h)⟩

/-- A built tree meets the invariant, with the encoder and the decoder at rest. -/
theorem invariant_of_tree {s : State} {arena : Vector Node 511} (h : arena = buildArena s.freq s.node) (hf : smoothed s)
    (h1 : s.tableValid = false) (h2 : s.encState = .idle) (h3 : s.decState = .idle) (h4 : s.decCur = Config.root)
    (h5 : s.err = false) (h6 : s.errCode = 0) (h7 : s.errOpc = 0) :
    Invariant { s with node := arena, treeValid := true } where
  table_needs_tree := fun _ => rfl
  enc_needs_table := fun h => by simp [h2] at h
  dec_needs_tree := fun _ => rfl
  dec_rests_at_root := fun _ => h4
  dec_at_compound := fun h => by simp [h3] at h
  no_err_no_code := fun _ => ⟨h6, h7⟩
  err_code_range := fun h => by simp [h5] at h
  tree_freqs := fun _ sym => Nat.pos_of_ne_zero fun h => hf sym (BitVec.eq_of_toNat_eq h)
  tree_current := fun _ => ⟨s.node, h⟩
  table_current := fun h => by simp [h1] at h

/-- A table built from it does too. -/
theorem invariant_of_table {s : State} (hs : Invariant s) (ht : s.treeValid = true) {st prior : CodeStore}
    (h : st = buildStore s.node prior) : Invariant { s with len := st.len, code := st.code, tableValid := true } where
  table_needs_tree := fun _ => ht
  enc_needs_table := fun _ => rfl
  dec_needs_tree := hs.dec_needs_tree
  dec_rests_at_root := hs.dec_rests_at_root
  dec_at_compound := hs.dec_at_compound
  no_err_no_code := hs.no_err_no_code
  err_code_range := hs.err_code_range
  tree_freqs := hs.tree_freqs
  tree_current := hs.tree_current
  table_current := fun _ => ⟨prior, congrArg CodeStore.len h, congrArg CodeStore.code h⟩

/-- And a decode operation just opened. -/
theorem invariant_of_decode {s : State} (hs : Invariant s) (ht : s.treeValid = true) (hc : s.decCur = Config.root) :
    Invariant { s with decState := .active } where
  table_needs_tree := hs.table_needs_tree
  enc_needs_table := hs.enc_needs_table
  dec_needs_tree := fun _ => ht
  dec_rests_at_root := fun _ => hc
  dec_at_compound := fun _ => by
    obtain ⟨prior, hp⟩ := hs.tree_current ht
    simp only [State.readNode, hc, hp, buildArena_kind]
    exact ⟨by decide, by decide⟩
  no_err_no_code := hs.no_err_no_code
  err_code_range := hs.err_code_range
  tree_freqs := hs.tree_freqs
  tree_current := hs.tree_current
  table_current := hs.table_current

theorem treed_invariant : Invariant treed :=
  invariant_of_tree onesArena_eq ones_smoothed rfl rfl rfl rfl rfl rfl rfl

theorem tabled_invariant : Invariant tabled := invariant_of_table treed_invariant rfl onesStore_eq

theorem decoding_invariant : Invariant decoding := invariant_of_decode treed_invariant rfl rfl

theorem witness_EncodeAfterDecode : decode 0x0000000300004110 = .accept (.freqWrite 65 3) := by decide

theorem witness_IllegalWordsChangeNothingElse :
    illegalWord 0x0000000000000100 ∧ illegalWord 0x00000000000000FF ∧ ¬ illegalWord 0x0000000300004110 := by
  unfold illegalWord; decide

theorem witness_TransportIsLittleEndian : (0 : Nat) < 8 ∧ (7 : Nat) < 8 := by decide

/-- The two hypotheses of `wordForm`, which every command's statement carries: fields that are zero, and one that is not. -/
theorem witness_wordForm :
    ((false = true ∨ (0 : Byte) = 0) ∧ (false = true ∨ (0 : BitVec 16) = 0) ∧ (false = true ∨ (0 : Freq) = 0)) ∧
    ¬ ((false = true ∨ (1 : Byte) = 0) ∧ (false = true ∨ (0 : BitVec 16) = 0) ∧ (false = true ∨ (0 : Freq) = 0)) ∧
    ¬ ((true = true ∨ (0 : Byte) = 0) ∧ (true = true ∨ (0 : BitVec 16) = 0) ∧ (false = true ∨ (1 : Freq) = 0)) := by decide

theorem witness_StepPerformsTheIssuedCommand :
    (State.reset.issue 0x4111).port = .command 0x4111 :: [] ∧ decode 0x4111 = .accept (.freqRead 65) := by decide

theorem witness_IdleStepKeepsAllState : State.reset.port = [] := rfl

theorem witness_EveryCommandAnswersOnce : drained State.reset := ⟨rfl, rfl⟩

theorem witness_FailureLeavesOnlyTheErrorEntry :
    perform 0x100 State.reset = .next (State.reset.errorEntry .illegalCmd 0) ∧
    (State.reset.errorEntry .illegalCmd 0).responses = State.reset.responses ++ [{ rc := .illegalCmd, data := 0 }] ∧
    ResultCode.illegalCmd ≠ .ok ∧
    perform 0x7851 decoding = .next (decoding.abortDecode.errorEntry .malformedSymbol 0x51) ∧
    (decoding.abortDecode.errorEntry .malformedSymbol 0x51).responses =
      decoding.responses ++ [{ rc := .malformedSymbol, data := 0 }] := by
  refine ⟨perform_reject (e := .unusedField) (by decide) _, by simp, by decide, ?_, by simp⟩
  rw [perform_accept (i := .decChar 0x78) (by decide)]
  exact exec_of_effect (.malformedSymbol rfl (by decide))

/-- One case for each clause: no command, out of range, not allowed, the command's own error, and OK. -/
theorem witness_ResultCodeFollowsThePriority :
    ((∃ t, perform 0x100 State.reset = .next t) ∧ illegalWord 0x100) ∧
    ((∃ t, perform 0x0000000001FF0021 State.reset = .next t) ∧ decode 0x0000000001FF0021 = .accept (.nodeRead 511) ∧
      (Instr.nodeRead 511).wellFormed = false) ∧
    ((∃ t, perform 0x0000000001FE0021 State.reset = .next t) ∧ decode 0x0000000001FE0021 = .accept (.nodeRead 510) ∧
      (Instr.nodeRead 510).wellFormed = true ∧ badStateWhen State.reset (.nodeRead 510)) ∧
    ((∃ t, perform 0x52 decoding = .next t) ∧ decode 0x52 = .accept .decEos ∧ ¬ badStateWhen decoding .decEos ∧
      operationError? decoding .decEos = some .malformedEos) ∧
    ((∃ t, perform 0 State.reset = .next t) ∧ decode 0 = .accept .nop ∧ ¬ badStateWhen State.reset .nop ∧
      operationError? State.reset .nop = none) := by
  refine ⟨⟨⟨_, rfl⟩, by unfold illegalWord; decide⟩, ⟨⟨_, rfl⟩, by decide, by decide⟩, ⟨⟨_, rfl⟩, by decide, by decide, rfl⟩,
    ⟨⟨_, rfl⟩, by decide, by simp [badStateWhen, decoding], rfl⟩, ⟨_, rfl⟩, by decide, id, rfl⟩

theorem witness_ErrorCaptureNeverBlocks :
    Instr.buildTree ≠ .getStatus ∧
    (perform 0x40 encOnes = .next (encOnes.errorEntry .badState 0x40) ∧
      (encOnes.errorEntry .badState 0x40).responses = encOnes.responses ++ [{ rc := .badState, data := 0 }] ∧
      ResultCode.badState ≠ .ok) ∧
    (isEncoder .encStart = true ∧ exec .encStart encOnes = .next (encOnes.errorEntry .badState 0x40)) := by
  refine ⟨by decide, ⟨?_, by simp, by decide⟩, rfl, exec_badState (i := .encStart) (.inr rfl) rfl⟩
  rw [perform_accept (i := .encStart) (by decide)]
  exact exec_badState (i := .encStart) (.inr rfl) rfl

/-- One event that keeps the capture, and each kind that clears it. -/
theorem witness_CaptureClearedOnlyByClearOrReset :
    let s : State := { State.reset with err := true, errCode := 4, errOpc := 0x20 }
    s.err = true ∧ (∃ t, step (s.issue 0) = .next t) ∧ (∃ t, step (s.issue 1) = .next t) ∧ (∃ t, step (s.issue 3) = .next t) ∧
      (∃ t, step { s with port := [.hardReset] } = .next t) ∧ (∃ t, step { s with port := [.cutCommand 0] } = .next t) :=
  ⟨rfl, ⟨_, rfl⟩, ⟨_, rfl⟩, ⟨_, rfl⟩, ⟨_, rfl⟩, ⟨_, rfl⟩⟩

theorem reset_isReset : isReset State.reset :=
  ⟨fun sym => by simp [State.readFreq, State.reset], rfl, rfl, rfl, rfl, rfl, rfl, rfl, rfl, rfl, by decide +kernel⟩

theorem witness_ResetTable :
    ({ treed with port := [.hardReset] } : State).port = .hardReset :: [] ∧
    (isReset State.reset ∧ (Instr.nodeRead 510).wellFormed = true ∧ readsTables (.nodeRead 510) = true) :=
  ⟨rfl, reset_isReset, by decide, rfl⟩

theorem witness_ResetLeavesTheHostSide :
    ({ treed with port := [.hardReset, .command 0x02] } : State).port = .hardReset :: [.command 0x02] := rfl

theorem witness_HardwareResetCutsTheCommand :
    ({ ones with port := [.cutCommand 0x20] } : State).port = .cutCommand 0x20 :: [] ∧
    ∃ u, perform 0x20 { ({ ones with port := [.cutCommand 0x20] } : State) with port := [] } = .next u := by
  refine ⟨rfl, ?_⟩
  rw [perform_accept (i := .buildTree) (by decide)]
  exact ones_builds _ rfl rfl

theorem witness_HostStopsConsuming :
    ({ encOnes with port := [.stopConsuming .enc] } : State).port = .stopConsuming .enc :: [] ∧ encOnes.encRoom = none ∧
    ({ encOnes with port := [.stopConsuming .dec] } : State).port = .stopConsuming .dec :: [] ∧ encOnes.decRoom = none :=
  ⟨rfl, rfl, rfl, rfl⟩

theorem witness_FreqWriteStoresOneEntry : State.reset.treeValid = false ∧ treed.treeValid = true := ⟨rfl, rfl⟩

/-- The input of E1, loaded as LOAD_FREQS would. -/
theorem witness_ReferenceProfileIsAccepted :
    let s : State := { State.reset with freq := ((Vector.replicate 256 1).set 65 3).set 66 1 }
    loadable [65, 65, 65, 66] ∧ s.treeValid = false ∧ ∀ sym : Byte, (s.readFreq sym).toNat = profile [65, 65, 65, 66] sym := by
  refine ⟨fun sym => le_trans List.count_le_length (by decide), rfl, fun sym => ?_⟩
  simp only [State.readFreq, symIndex, Fin.getElem_fin, profile, occurrences, List.count_cons, List.count_nil]
  by_cases h1 : sym = 65
  · subst h1; decide
  · by_cases h2 : sym = 66
    · subst h2; decide
    · have e1 : sym.toNat ≠ 65 := fun h => h1 (BitVec.eq_of_toNat_eq h)
      have e2 : sym.toNat ≠ 66 := fun h => h2 (BitVec.eq_of_toNat_eq h)
      have e3 : ((65 : Byte) == sym) = false := beq_eq_false_iff_ne.2 (Ne.symm h1)
      have e4 : ((66 : Byte) == sym) = false := beq_eq_false_iff_ne.2 (Ne.symm h2)
      have e5 : (((Vector.replicate 256 (1 : Freq)).set 65 3).set 66 1)[sym.toNat]'sym.isLt = 1 := by
        rw [Vector.getElem_set_ne _ _ (Ne.symm e2), Vector.getElem_set_ne _ _ (Ne.symm e1), Vector.getElem_replicate]
      refine (congrArg BitVec.toNat e5).trans ?_
      rw [e3, e4]
      rfl

theorem witness_BuildTreeBuildsOrRefuses :
    treed.treeValid = true ∧ (State.reset.treeValid = false ∧ ∃ sym : Byte, State.reset.readFreq sym = 0) ∧
    (ones.treeValid = false ∧ smoothed ones) :=
  ⟨rfl, ⟨rfl, 0, by decide⟩, rfl, ones_smoothed⟩

theorem witness_SelectionIsCanonical : ([65, 4] : List NodeIndex) ≠ [] ∧ ([65, 4] : List NodeIndex).Nodup := by decide

/-- The first and the last record a merge can make. -/
theorem witness_MergeMakesOneCompound :
    let b : Build := { node := State.reset.node, coll := [1, 0], nextSeq := 256 }
    let c : Build := { node := State.reset.node, coll := [509, 508], nextSeq := 510 }
    (b.nextSeq < 511 ∧ select? b.node b.coll = some (0, [1]) ∧ select? b.node [1] = some (1, [])) ∧
    (c.nextSeq < 511 ∧ select? c.node c.coll = some (508, [509]) ∧ select? c.node [509] = some (509, [])) := by
  decide +kernel

theorem witness_MergesEndWithTheRoot : (0 : Nat) ≤ 255 ∧ (255 : Nat) ≤ 255 ∧ (0 : Nat) ≤ 254 ∧ (254 : Nat) ≤ 254 := by decide

theorem witness_ArenaDependsOnFreqAlone :
    let s' : State := { ones with node := Vector.replicate 511 { kind := .compound, freq := 7, left := 1, right := 2 } }
    ones.freq = s'.freq ∧ ones.treeValid = false ∧ s'.treeValid = false ∧ smoothed ones ∧
      (∃ t, exec .buildTree ones = .next t) ∧ (∃ t', exec .buildTree s' = .next t') ∧ (65 : Byte) ≠ 66 :=
  ⟨rfl, rfl, rfl, ones_smoothed, ones_builds _ rfl rfl, ones_builds _ rfl rfl, by decide⟩

theorem witness_RootSumsAndUniqueParents :
    ones.treeValid = false ∧ smoothed ones ∧ (0 : NodeIndex).val < 510 ∧ (509 : NodeIndex).val < 510 :=
  ⟨rfl, ones_smoothed, by decide, by decide⟩

theorem witness_TreeIsFullWithAllLeaves : Invariant treed ∧ treed.treeValid = true ∧ (treed.readNode 510).kind = .compound :=
  ⟨treed_invariant, rfl, (decoding_invariant.dec_at_compound rfl).1⟩

/-- A tie between two leaves, and one between two compounds. -/
theorem witness_TiesGoToTheOlderNode :
    let node := State.reset.node
    (select? node [65, 4] = some (4, [65]) ∧ (65 : NodeIndex) ∈ ([65, 4] : List NodeIndex) ∧ node[4].freq = node[65].freq ∧
      (65 : NodeIndex).val < 256) ∧
    (select? node [300, 256] = some (256, [300]) ∧ (300 : NodeIndex) ∈ ([300, 256] : List NodeIndex) ∧
      node[256].freq = node[300].freq ∧ 256 ≤ (256 : NodeIndex).val) := by decide +kernel

theorem witness_NodeFrequenciesAreExact :
    Invariant treed ∧ treed.treeValid = true ∧ (treed.readNode 510).kind = .compound :=
  ⟨treed_invariant, rfl, (decoding_invariant.dec_at_compound rfl).1⟩

theorem witness_NodeReadAnswersTheRecord :
    510 < (511 : BitVec 16).toNat ∧ 510 < (0xFFFF : BitVec 16).toNat ∧
    ((510 : BitVec 16).toNat ≤ 510 ∧ State.reset.treeValid = false) ∧
    ((510 : BitVec 16).toNat = (510 : NodeIndex).val ∧ (0 : BitVec 16).toNat = (0 : NodeIndex).val ∧ treed.treeValid = true) ∧
    Invariant treed :=
  ⟨by decide, by decide, ⟨by decide, rfl⟩, ⟨by decide, by decide, rfl⟩, treed_invariant⟩

theorem witness_BuildTableWalksTheTree :
    (State.reset.treeValid = false ∨ State.reset.tableValid = true) ∧ (tabled.treeValid = false ∨ tabled.tableValid = true) ∧
    (Invariant treed ∧ treed.treeValid = true ∧ treed.tableValid = false) :=
  ⟨.inl rfl, .inr rfl, treed_invariant, rfl, rfl⟩

theorem witness_CodesAreTheTreePaths : Invariant treed ∧ treed.treeValid = true ∧ treed.tableValid = false :=
  ⟨treed_invariant, rfl, rfl⟩

theorem witness_CodeTableIsCompleteAndFree : Invariant tabled ∧ tabled.tableValid = true ∧ (65 : Byte) ≠ 66 :=
  ⟨tabled_invariant, rfl, by decide⟩

theorem witness_CodeLenReadAnswersTheLength :
    treed.tableValid = false ∧ tabled.tableValid = true ∧ Invariant tabled := ⟨rfl, rfl, tabled_invariant⟩

theorem witness_CodeBitsReadAnswersOneWindow :
    7 < (8 : BitVec 16).toNat ∧ ((7 : BitVec 16).toNat ≤ 7 ∧ treed.tableValid = false) ∧
    ((7 : BitVec 16).toNat ≤ 7 ∧ (0 : BitVec 16).toNat ≤ 7 ∧ tabled.tableValid = true ∧ (31 : Nat) < 32) :=
  ⟨by decide, ⟨by decide, rfl⟩, by decide, by decide, rfl, by decide⟩

theorem witness_EncStartOpensAnOperation :
    (treed.tableValid = false ∨ treed.encState = .active) ∧ (encOnes.tableValid = false ∨ encOnes.encState = .active) ∧
    (tabled.tableValid = true ∧ tabled.encState = .idle) := ⟨.inl rfl, .inr rfl, rfl, rfl⟩

theorem witness_EncSymAppendsTheCode : tabled.encState = .idle ∧ (encOnes.encState = .active ∧ encOnes.encRoom = none) :=
  ⟨rfl, rfl, rfl⟩

theorem witness_EncEndAppendsTheSentinel : tabled.encState = .idle ∧ (encOnes.encState = .active ∧ encOnes.encRoom = none) :=
  ⟨rfl, rfl, rfl⟩

theorem witness_EncodeOperationOutput :
    tabled.tableValid = true ∧ tabled.encState = .idle ∧ drained tabled ∧
    [Instr.nop, .encStart, .freqRead 1, .encSym 65, .decEos, .encEnd, .getStatus].filter isEncoder = encodeAll [65] ∧
    Instr.softReset ∉ [Instr.nop, .encStart, .freqRead 1, .encSym 65, .decEos, .encEnd, .getStatus] ∧
    Invariant tabled :=
  ⟨rfl, rfl, ⟨rfl, rfl⟩, by decide, by decide, tabled_invariant⟩

/-- Exactly enough room, and one byte too little; an output port with one byte of room, and a full one. -/
theorem witness_EmissionNeedsRoom :
    ((tight 1).encState = .active ∧ (tight 1).encRoom = some 1 ∧ ((tight 1).readLen 65).toNat ≤ 1) ∧
    ((tight 0).encState = .active ∧ (tight 0).encRoom = some 0 ∧ 0 < ((tight 0).readLen 65).toNat) ∧
    ((tight 2).encRoom = some 2 ∧ ((tight 2).readLen 4).toNat ≤ 2) ∧
    ((tight 1).encRoom = some 1 ∧ 1 < ((tight 1).readLen 4).toNat) ∧
    (let s : State := { decOnes 288 with decRoom := some 1 }
     s.decState = .active ∧ s.decRoom = some 1 ∧ (65 : NodeIndex) = s.node[s.decCur].right ∧
       s.node[(65 : NodeIndex)].kind = .leaf ∧ (65 : NodeIndex).val ≠ 4) ∧
    (let s : State := { decOnes 288 with decRoom := some 0 }
     s.decState = .active ∧ s.decRoom = some 0 ∧ (64 : NodeIndex) = s.node[s.decCur].left ∧
       s.node[(64 : NodeIndex)].kind = .leaf ∧ (64 : NodeIndex).val ≠ 4) := by decide +kernel

theorem witness_DecStartOpensAnOperation :
    (State.reset.treeValid = false ∨ State.reset.decState = .active) ∧ (decoding.treeValid = false ∨ decoding.decState = .active) ∧
    (treed.treeValid = true ∧ treed.decState ≠ .active) := ⟨.inl rfl, .inr rfl, rfl, by simp [treed, ones, State.reset]⟩

/-- Idle; a character that is no bit; a step to a compound, to the sentinel's leaf and to another leaf. -/
theorem witness_DecCharTakesOneEdge :
    treeOnes.decState ≠ .active ∧
    ((decOnes 510).decState = .active ∧ (0x78 : Byte) ≠ 0x30 ∧ (0x78 : Byte) ≠ 0x31) ∧
    ((decOnes 510).node[(decOnes 510).decCur].right = 509 ∧ (decOnes 510).node[(509 : NodeIndex)].kind = .compound) ∧
    ((decOnes 258).node[(decOnes 258).decCur].left = 4 ∧ (decOnes 258).node[(4 : NodeIndex)].kind = .leaf) ∧
    ((decOnes 288).node[(decOnes 288).decCur].right = 65 ∧ (decOnes 288).node[(65 : NodeIndex)].kind = .leaf ∧
      (65 : NodeIndex).val ≠ 4 ∧ (decOnes 288).decRoom = none) := by decide +kernel

theorem witness_DecEosEndsTheOperation :
    treed.decState = .idle ∧ decoding.decState = .active ∧ ({ treed with decState := .done } : State).decState = .done :=
  ⟨rfl, rfl, rfl⟩

theorem witness_DecodeInvertsEncode :
    Invariant tabled ∧ tabled.tableValid = true ∧ tabled.encState = .idle ∧ tabled.decState ≠ .active ∧ drained tabled ∧
    (4 : Byte) ∉ ([65, 65, 65, 66] : List Byte) :=
  ⟨tabled_invariant, rfl, rfl, by simp [tabled, treed, ones, State.reset], ⟨rfl, rfl⟩, by decide⟩

theorem witness_StreamsOnlyGrow : Invariant treed ∧ ∃ t, step treed = .next t := ⟨treed_invariant, treed, rfl⟩

theorem sameEncoderSide_of_decoder (s : State) (d : DecState) (f : Vector Freq 256) :
    sameEncoderSide s { s with decState := d, freq := f } := ⟨rfl, rfl, rfl, rfl, rfl, rfl⟩

theorem sameDecoderSide_of_encoder (s : State) (e : EncState) (b : Bool) :
    sameDecoderSide s { s with encState := e, err := b } := ⟨rfl, rfl, rfl, rfl, rfl⟩

theorem witness_EncoderAndDecoderAreIndependent :
    (isEncoder .encStart = true ∧ sameEncoderSide tabled { tabled with decState := .done, freq := State.reset.freq } ∧
      ∃ t, exec .encStart tabled = .next t) ∧
    (isDecoder .decStart = true ∧ sameDecoderSide treed { treed with encState := .active, err := true } ∧
      ∃ t, exec .decStart treed = .next t) :=
  ⟨⟨rfl, sameEncoderSide_of_decoder _ _ _, _, exec_of_effect (.encStart rfl rfl)⟩, rfl, sameDecoderSide_of_encoder _ _ _, _,
    exec_of_effect (.decStart rfl (by simp [treed, ones, State.reset]))⟩

theorem witness_ReadsHaveNoSideEffects :
    (isRead (.freqRead 65) = true ∧ ∃ t, exec (.freqRead 65) treed = .next t) ∧
    (isRead (.nodeRead 511) = true ∧ ∃ t, exec (.nodeRead 511) treed = .next t) := ⟨⟨rfl, _, rfl⟩, rfl, _, rfl⟩

theorem witness_BuiltTablesAreFrozen :
    Instr.freqWrite 65 3 ≠ .softReset ∧ (∃ t, exec (.freqWrite 65 3) tabled = .next t) ∧ tabled.treeValid = true ∧
    tabled.tableValid = true :=
  ⟨by decide, ⟨_, exec_of_effect (.badState rfl rfl)⟩, rfl, rfl⟩

theorem witness_BootSequenceSucceeds :
    State.reset.treeValid = false ∧ State.reset.tableValid = false ∧ ∀ sym : Byte, (fun _ : Byte => (1 : Freq)) sym ≠ 0 :=
  ⟨rfl, rfl, fun _ => show (1 : Freq) ≠ 0 by decide⟩

theorem witness_EveryStepKeepsTheInvariant :
    (Invariant treed ∧ ∃ t, step (treed.issue 0x50) = .next t) ∧
    (Invariant decoding ∧ ∃ t, step { decoding with port := [.hardReset] } = .next t) := by
  refine ⟨⟨treed_invariant, ?_⟩, decoding_invariant, _, rfl⟩
  rw [step, takeEvent_event (e := .command 0x50) (rest := []) rfl, handle, perform_accept (i := .decStart) (by decide)]
  exact ⟨_, exec_of_effect (.decStart rfl (by simp [treed, ones, State.reset]))⟩

end Sys2Proof.Tests
end

section
/-! The step by the host's next event (R58, R75, R231, R235), and the statements of spec/00_scope.md. -/

namespace Sys2Proof.Machine

/-! ## One rule per host event -/

@[simp] theorem handle_command (w : Word) (s : State) : handle (.command w) s = perform w s := rfl

@[simp] theorem handle_hardReset (s : State) : handle .hardReset s = .next s.applyReset := rfl

@[simp] theorem handle_cutCommand (w : Word) (s : State) : handle (.cutCommand w) s = .next (s.cutByReset w) := rfl

@[simp] theorem handle_stopConsuming (st : Stream) (s : State) :
    handle (.stopConsuming st) s = .next (s.stopConsuming st) := rfl

/-- A step with an event pending handles that event, with the event gone from the port. -/
theorem step_event {s : State} {e : HostEvent} {rest : List HostEvent} (h : s.port = e :: rest) :
    step s = handle e { s with port := rest } := takeEvent_event h

theorem exec_softReset (s : State) : exec .softReset s = .next (s.applyReset.respond 0) :=
  exec_of_effect .softReset

/-! ## The room when the host ceases to consume (R235) -/

/-- A consumed port gets a room of at most `OUT_CAPACITY`. -/
theorem roomAtStop_none (draw : Nat) : ∃ k, k ≤ Config.outCapacity ∧ roomAtStop none draw = some k :=
  ⟨_, Nat.min_le_right _ _, rfl⟩

theorem stopConsuming_enc (s : State) :
    s.stopConsuming .enc = { s with encRoom := roomAtStop s.encRoom s.draws, draws := s.draws + 1 } := rfl

theorem stopConsuming_dec (s : State) :
    s.stopConsuming .dec = { s with decRoom := roomAtStop s.decRoom s.draws, draws := s.draws + 1 } := rfl

end Sys2Proof.Machine

namespace Sys2Proof.Claims

open Sys2Proof.Machine

/-- Settles O8: the step handles the command word, and an accepted word is performed by `exec`. -/
theorem stepPerformsTheIssuedCommand : Obligations.StepPerformsTheIssuedCommand := by
  intro s w rest i hport hdecode
  rw [step_event hport, handle_command, perform_accept hdecode]

/-- Settles O21: either stream's room was unlimited, so `roomAtStop_none` bounds the new one. -/
theorem hostStopsConsuming : Obligations.HostStopsConsuming := by
  intro s rest
  obtain ⟨k, hk, hroom⟩ := roomAtStop_none s.draws
  constructor
  · intro hport henc
    exact ⟨k, hk, by rw [step_event hport, handle_stopConsuming, stopConsuming_enc, henc, hroom]⟩
  · intro hport hdec
    exact ⟨k, hk, by rw [step_event hport, handle_stopConsuming, stopConsuming_dec, hdec, hroom]⟩

/-- Settles O57: both resets are `applyReset`, whose field laws keep the host's side; SOFT_RESET then responds. -/
theorem resetLeavesTheHostSide : Obligations.ResetLeavesTheHostSide := by
  constructor
  · intro s
    exact ⟨_, exec_softReset s, by simp [respond_eq]⟩
  · intro s rest hport
    exact ⟨_, by rw [step_event hport, handle_hardReset], by simp⟩

end Sys2Proof.Claims
end

section
/-! The invariant of R34 and the growth of the output streams (R32): one rule per part of the state, then per effect of a
command, per host event and per step; and the statements of spec/10_state.md. -/

namespace Sys2Proof.Machine

/-! ## What a step and a performed word can do -/

/-- Everything a step can do: the block waits (R214), or it handles the next event with that event gone from the port. -/
theorem step_cases {s t : State} (h : step s = .next t) :
    (s.port = [] ∧ t = s) ∨ ∃ e rest, s.port = e :: rest ∧ handle e { s with port := rest } = .next t := by
  cases hp : s.port with
  | nil =>
    rw [step, takeEvent_idle hp] at h
    cases h
    exact .inl ⟨rfl, rfl⟩
  | cons e rest => exact .inr ⟨e, rest, rfl, by rw [← step_event hp, h]⟩

/-- Everything a performed word can do: the error entry of ILLEGAL_CMD, or an effect of the command it encodes (R75). -/
theorem perform_cases {w : Word} {s t : State} (h : perform w s = .next t) :
    t = s.errorEntry .illegalCmd (opcField w) ∨ ∃ i, Effect i s t := by
  cases hd : decode w with
  | accept i =>
    rw [perform_accept hd] at h
    exact .inr ⟨i, effect_of_exec h⟩
  | reject e =>
    rw [perform_reject hd] at h
    cases h
    exact .inl rfl

/-! ## What the invariant says of a valid tree (R22, R26) -/

/-- The frequencies BUILD_TREE accepts are those that R34 item 7 asks for (R120). -/
theorem readFreq_pos_of_no_zero {s : State} (h : hasZeroFreq s.freq = false) (sym : Byte) : 1 ≤ (s.readFreq sym).toNat := by
  have hmem : s.readFreq sym ∈ s.freq.toList := Vector.mem_toList_iff.2 (Vector.getElem_mem _)
  have hne : s.readFreq sym ≠ 0 := by simpa using List.any_eq_false.1 h _ hmem
  exact Nat.pos_of_ne_zero fun h0 => hne (BitVec.eq_of_toNat_eq h0)

namespace Invariant

variable {s : State} (h : Invariant s)
include h

/-- Without a tree there is no table, and neither the encoder nor the decoder is running (R34 items 1 to 3). -/
theorem at_rest_of_no_tree (ht : s.treeValid = false) :
    s.tableValid = false ∧ s.encState = .idle ∧ s.decState = .idle := by
  have htab : s.tableValid = false := by
    cases hv : s.tableValid with
    | false => rfl
    | true => rw [h.table_needs_tree hv] at ht; cases ht
  have henc : s.encState = .idle := by
    cases hv : s.encState with
    | idle => rfl
    | active => rw [h.enc_needs_table hv] at htab; cases htab
  have hdec : s.decState = .idle := by
    by_contra hv
    rw [h.dec_needs_tree hv] at ht
    cases ht
  exact ⟨htab, henc, hdec⟩

/-- In a valid tree a record's kind is told by its index (R22). -/
theorem kind_readNode (ht : s.treeValid = true) (n : NodeIndex) :
    (s.readNode n).kind = if n.val < 256 then .leaf else .compound := by
  obtain ⟨prior, hp⟩ := h.tree_current ht
  rw [State.readNode, hp, buildArena_kind]

theorem le_of_compound (ht : s.treeValid = true) {n : NodeIndex} (hk : (s.readNode n).kind = .compound) :
    256 ≤ n.val := by
  rw [h.kind_readNode ht] at hk
  split at hk
  · cases hk
  · omega

theorem lt_of_leaf (ht : s.treeValid = true) {n : NodeIndex} (hk : (s.readNode n).kind = .leaf) : n.val < 256 := by
  rw [h.kind_readNode ht] at hk
  split at hk
  · assumption
  · cases hk

theorem root_compound (ht : s.treeValid = true) :
    (s.readNode Config.root).kind = .compound ∧ 256 ≤ Config.root.val := by
  rw [h.kind_readNode ht]
  decide

theorem tree_of_decoding (ha : s.decState = .active) : s.treeValid = true :=
  h.dec_needs_tree (by rw [ha]; decide)

/-! ## One rule per part of the state -/

/-- The invariant says nothing of the host's side of the ports. -/
theorem withHostSide (port : List HostEvent) (rs : List Response) (er dr : Option Nat) (n : Nat) :
    Invariant { s with port := port, responses := rs, encRoom := er, decRoom := dr, draws := n } := { h with }

theorem respond (d : Word) : Invariant (s.respond d) := h.withHostSide _ _ _ _ _

/-- The error capture may take any value that R34 item 6 allows. -/
theorem withCapture {e : Bool} {c o : Byte} (h0 : e = false → c = 0 ∧ o = 0)
    (h1 : e = true → 1 ≤ c.toNat ∧ c.toNat ≤ 6) : Invariant { s with err := e, errCode := c, errOpc := o } :=
  { h with no_err_no_code := h0, err_code_range := h1 }

theorem clearCapture : Invariant s.clearCapture := h.withCapture (fun _ => ⟨rfl, rfl⟩) nofun

theorem errorEntry {rc : ResultCode} (hrc : 1 ≤ rc.toByte.toNat ∧ rc.toByte.toNat ≤ 6) (opc : Byte) :
    Invariant (s.errorEntry rc opc) := by
  rw [errorEntry_eq]
  refine (h.withCapture (e := true) nofun fun _ => ?_).withHostSide _ _ _ _ _
  cases he : s.err with
  | false => exact hrc
  | true => exact h.err_code_range he

/-- The encoder may be active where the code table is valid (R34 item 2). -/
theorem withEncoder {es : EncState} (hes : es = .active → s.tableValid = true) (sent : Bool) (out : List Byte)
    (room : Option Nat) :
    Invariant { s with encState := es, sentInData := sent, encOut := out, encRoom := room } :=
  { h with enc_needs_table := hes }

/-- The decoder may be at work where the tree is valid; it is at a compound while active, else at the root
(R34 items 3 to 5). -/
theorem withDecoder {ds : DecState} {cur : NodeIndex} (htree : ds ≠ .idle → s.treeValid = true)
    (hroot : ds ≠ .active → cur = Config.root)
    (hcomp : ds = .active → (s.readNode cur).kind = .compound ∧ 256 ≤ cur.val) (out : List Byte) (room : Option Nat) :
    Invariant { s with decState := ds, decCur := cur, decOut := out, decRoom := room } :=
  { h with dec_needs_tree := htree, dec_rests_at_root := hroot, dec_at_compound := hcomp }

theorem abortDecode : Invariant s.abortDecode :=
  h.withDecoder (fun hne => absurd rfl hne) (fun _ => rfl) nofun _ _

/-- Before the tree exists nothing depends on the frequencies (R110). -/
theorem writeFreq (ht : s.treeValid = false) (sym : Byte) (f : Freq) : Invariant (s.writeFreq sym f) := by
  have hno : s.treeValid ≠ true := by rw [ht]; decide
  exact { h with
    tree_freqs := fun hv => absurd hv hno
    tree_current := fun hv => absurd hv hno }

/-- A tree built where there was none (R120). -/
theorem withTree {arena : Vector Node 511} (ht : s.treeValid = false) (hz : hasZeroFreq s.freq = false)
    (ha : arena = buildArena s.freq s.node) : Invariant { s with node := arena, treeValid := true } := by
  obtain ⟨htab, -, hdec⟩ := h.at_rest_of_no_tree ht
  exact { h with
    table_needs_tree := fun _ => rfl
    dec_needs_tree := fun _ => rfl
    dec_at_compound := fun hv => by rw [hdec] at hv; cases hv
    tree_freqs := fun _ => readFreq_pos_of_no_zero hz
    tree_current := fun _ => ⟨s.node, ha⟩
    table_current := fun hv => by rw [htab] at hv; cases hv }

/-- A code table built from a valid tree (R140). -/
theorem withTable {st prior : CodeStore} (ht : s.treeValid = true) (hst : st = buildStore s.node prior) :
    Invariant { s with len := st.len, code := st.code, tableValid := true } :=
  { h with
    table_needs_tree := fun _ => ht
    enc_needs_table := fun _ => rfl
    table_current := fun _ => ⟨prior, congrArg CodeStore.len hst, congrArg CodeStore.code hst⟩ }

end Invariant

/-- A state with no tree, no table, nothing running and no error captured meets the invariant, whatever its tables hold. -/
theorem invariant_of_cleared {s : State} (htree : s.treeValid = false) (htable : s.tableValid = false)
    (henc : s.encState = .idle) (hdec : s.decState = .idle) (hcur : s.decCur = Config.root) (herr : s.err = false)
    (hcode : s.errCode = 0) (hopc : s.errOpc = 0) : Invariant s where
  table_needs_tree := by simp [htable]
  enc_needs_table := by simp [henc]
  dec_needs_tree := by simp [hdec]
  dec_rests_at_root := fun _ => hcur
  dec_at_compound := by simp [hdec]
  no_err_no_code := fun _ => ⟨hcode, hopc⟩
  err_code_range := by simp [herr]
  tree_freqs := by simp [htree]
  tree_current := by simp [htree]
  table_current := by simp [htable]

theorem invariant_applyReset (s : State) : Invariant s.applyReset :=
  invariant_of_cleared rfl rfl rfl rfl rfl rfl rfl rfl

/-! ## Every effect and every event keeps the invariant -/

theorem Effect.keeps_invariant {i : Instr} {s t : State} (he : Effect i s t) (h : Invariant s) : Invariant t := by
  cases he with
  | badOperand | badState | zeroFreq => exact h.errorEntry (by decide) _
  | malformedSymbol | malformedEos => exact h.abortDecode.errorEntry (by decide) _
  | nop | getStatus | freqRead | nodeRead | codeLenRead | codeBitsRead => exact h.respond _
  | softReset => exact (invariant_applyReset s).respond _
  | clearErr => exact h.clearCapture.respond _
  | freqWrite ht => exact (h.writeFreq ht _ _).respond _
  | buildTree ht hz ha => exact (h.withTree ht hz ha).respond _
  | buildTable ht _ hst => exact (h.withTable ht hst).respond _
  | encStart htab => exact (h.withEncoder (fun _ => htab) _ _ _).respond _
  | encSym => exact (h.withEncoder h.enc_needs_table _ _ _).respond _
  | encEnd => exact (h.withEncoder (es := .idle) nofun _ _ _).respond _
  | decStart ht =>
    exact (h.withDecoder (fun _ => ht) (fun hne => absurd rfl hne) (fun _ => h.root_compound ht) _ _).respond _
  | decStep ha _ _ hk =>
    have hcomp := h.le_of_compound (h.tree_of_decoding ha) hk
    exact (h.withDecoder h.dec_needs_tree (absurd ha) (fun _ => ⟨hk, hcomp⟩) _ _).respond _
  | decSentinel ha =>
    exact (h.withDecoder (ds := .done) (fun _ => h.tree_of_decoding ha) (fun _ => rfl) nofun _ _).respond _
  | decLeaf ha =>
    have hroot := h.root_compound (h.tree_of_decoding ha)
    exact (h.withDecoder h.dec_needs_tree (absurd ha) (fun _ => hroot) _ _).respond _
  | decEos hd =>
    have hroot : s.decCur = Config.root := h.dec_rests_at_root (by rw [hd]; decide)
    exact (h.withDecoder (fun hne => absurd rfl hne) (fun _ => hroot) nofun _ _).respond _

theorem perform_keeps_invariant {w : Word} {s t : State} (h : Invariant s) (hp : perform w s = .next t) :
    Invariant t := by
  rcases perform_cases hp with rfl | ⟨i, he⟩
  · exact h.errorEntry (by decide) _
  · exact he.keeps_invariant h

theorem handle_keeps_invariant {e : HostEvent} {s t : State} (h : Invariant s) (he : handle e s = .next t) :
    Invariant t := by
  cases e with
  | command w => exact perform_keeps_invariant h he
  | hardReset => cases he; exact invariant_applyReset s
  | cutCommand w => cases he; exact invariant_applyReset _
  | stopConsuming st =>
    cases he
    cases st <;> exact h.withHostSide _ _ _ _ _

/-! ## Growth of the output streams (R32) -/

/-- From `s` to `t` the streams are kept or longer: ENC_OUT by bit characters only, DEC_OUT by bytes other than 4. -/
def StreamsGrow (s t : State) : Prop :=
  ∃ e d : List Byte, t.encOut = s.encOut ++ e ∧ t.decOut = s.decOut ++ d ∧ (∀ c ∈ e, c = 0x30 ∨ c = 0x31) ∧ 4 ∉ d

theorem StreamsGrow.of_eq {s t : State} (he : t.encOut = s.encOut) (hd : t.decOut = s.decOut) : StreamsGrow s t :=
  ⟨[], [], by simp [he], by simp [hd], by simp, by simp⟩

theorem StreamsGrow.of_enc {s t : State} {cs : List Byte} (he : t.encOut = s.encOut ++ cs)
    (hcs : ∀ c ∈ cs, c = 0x30 ∨ c = 0x31) (hd : t.decOut = s.decOut) : StreamsGrow s t :=
  ⟨cs, [], he, by simp [hd], hcs, by simp⟩

/-- A code's characters are 0x30 and 0x31 (R161). -/
theorem codeChars_bits (s : State) (sym : Byte) : ∀ c ∈ s.codeChars sym, c = 0x30 ∨ c = 0x31 := by
  intro c hc
  obtain ⟨i, -, rfl⟩ := List.mem_map.1 hc
  cases (s.readCode sym).getLsbD i with
  | false => exact .inl rfl
  | true => exact .inr rfl

/-- Among the leaves only the sentinel's is the byte 4 (R22, R181). -/
theorem ofNat_ne_sentinel {n : NodeIndex} (hlt : n.val < 256) (hne : n ≠ sentinelNode) : BitVec.ofNat 8 n.val ≠ 4 := by
  intro h4
  have hmod : n.val % 256 = 4 := congrArg BitVec.toNat h4
  exact hne (Fin.ext (by rw [Nat.mod_eq_of_lt hlt] at hmod; exact hmod))

theorem Effect.streamsGrow {i : Instr} {s t : State} (he : Effect i s t) (h : Invariant s) : StreamsGrow s t := by
  cases he with
  | encSym | encEnd => exact .of_enc rfl (codeChars_bits s _) rfl
  | decLeaf ha _ _ hk hne =>
    have hbyte := ofNat_ne_sentinel (h.lt_of_leaf (h.tree_of_decoding ha) hk) hne
    exact ⟨[], _, (List.append_nil _).symm, rfl, by simp, by simpa using hbyte.symm⟩
  | _ => exact .of_eq (by simp) (by simp)

theorem perform_streamsGrow {w : Word} {s t : State} (h : Invariant s) (hp : perform w s = .next t) :
    StreamsGrow s t := by
  rcases perform_cases hp with rfl | ⟨i, he⟩
  · exact .of_eq (by simp) (by simp)
  · exact he.streamsGrow h

theorem mem_of_mem_withinRoom_take {room : Option Nat} {bs : List Byte} {k : Nat} {c : Byte}
    (hc : c ∈ withinRoom room (bs.take k)) : c ∈ bs :=
  List.mem_of_mem_take ((withinRoom_prefix room _).subset hc)

/-- A cut command delivers first parts of what it would have emitted (R231), so its streams grow as the command's. -/
theorem cutByReset_streamsGrow {s : State} (h : Invariant s) (w : Word) : StreamsGrow s (s.cutByReset w) := by
  have hgrow : StreamsGrow s (stateOr s (perform w { s with encRoom := none, decRoom := none })) := by
    cases hp : perform w { s with encRoom := none, decRoom := none } with
    | next u =>
      have hu : StreamsGrow { s with encRoom := none, decRoom := none } u :=
        perform_streamsGrow (h.withHostSide _ _ none none _) hp
      exact hu
    | fault | refused => exact .of_eq rfl rfl
  obtain ⟨e, d, henc, hdec, hbits, hfour⟩ := hgrow
  refine ⟨_, _, rfl, rfl, ?_, ?_⟩
  · rw [henc, List.drop_left]
    exact fun c hc => hbits c (mem_of_mem_withinRoom_take hc)
  · rw [hdec, List.drop_left]
    exact fun hc => hfour (mem_of_mem_withinRoom_take hc)

theorem handle_streamsGrow {e : HostEvent} {s t : State} (h : Invariant s) (he : handle e s = .next t) :
    StreamsGrow s t := by
  cases e with
  | command w => exact perform_streamsGrow h he
  | hardReset => cases he; exact .of_eq rfl rfl
  | cutCommand w => cases he; exact cutByReset_streamsGrow h w
  | stopConsuming st =>
    cases he
    cases st <;> exact .of_eq rfl rfl

end Sys2Proof.Machine

namespace Sys2Proof.Claims

open Sys2Proof.Machine

/-- Settles O55: an idle step keeps the state, and every event the host can issue keeps the invariant. -/
theorem everyStepKeepsTheInvariant : Obligations.EveryStepKeepsTheInvariant := by
  intro s t h hstep
  rcases step_cases hstep with ⟨-, rfl⟩ | ⟨e, rest, -, he⟩
  · exact h
  · exact handle_keeps_invariant (h.withHostSide rest _ _ _ _) he

/-- Settles O50: what each event adds to the streams is what an effect of its command emits, or a first part of it. -/
theorem streamsOnlyGrow : Obligations.StreamsOnlyGrow := by
  intro s t h hstep
  rcases step_cases hstep with ⟨-, rfl⟩ | ⟨e, rest, -, he⟩
  · exact StreamsGrow.of_eq rfl rfl
  · have ht : StreamsGrow { s with port := rest } t := handle_streamsGrow (h.withHostSide rest _ _ _ _) he
    exact ht

/-- Settles O56: at reset every flag is clear, so the invariant asks nothing of the tables. -/
theorem invariantHoldsAtReset : Obligations.InvariantHoldsAtReset :=
  invariant_of_cleared rfl rfl rfl rfl rfl rfl rfl rfl

end Sys2Proof.Claims
end

section
/-! Words carried as bytes (R52), emission into a port that nobody reads (R235), the reads (R57) and the frozen tables
(R61): the statements of spec/20_memory.md. -/

namespace Sys2Proof

/-! ## A word put together from its slices (R52) -/

/-- A slice of a word, put back where it was taken, is the word's bits there and 0 elsewhere. -/
theorem getLsbD_place_slice (w : Word) (lo n i : Nat) :
    (place (w.extractLsb' lo n) lo).getLsbD i = (decide (lo ≤ i ∧ i < lo + n) && w.getLsbD i) := by
  rw [getLsbD_place, BitVec.getLsbD_extractLsb']
  by_cases hlo : lo ≤ i
  · have hsub : i - lo < n ↔ i < lo + n := by omega
    by_cases hi : i < 64
    · simp [hlo, hi, hsub]
    · simp [hi, BitVec.getLsbD_of_ge w i (Nat.le_of_not_lt hi)]
  · simp [hlo]

/-- The low bits of a word and the slice just above them join to a longer low part. -/
theorem place_low_or_next (w : Word) (n m : Nat) :
    place (w.extractLsb' 0 n) 0 ||| place (w.extractLsb' n m) n = place (w.extractLsb' 0 (n + m)) 0 := by
  refine BitVec.eq_of_getLsbD_eq fun i _ => ?_
  have hsplit : (0 ≤ i ∧ i < 0 + n) ∨ (n ≤ i ∧ i < n + m) ↔ 0 ≤ i ∧ i < 0 + (n + m) := by omega
  simp only [BitVec.getLsbD_or, getLsbD_place_slice, ← Bool.and_or_distrib_right, ← Bool.decide_or, hsplit]

/-- The low 64 bits of a word are the word. -/
theorem place_low_all (w : Word) : place (w.extractLsb' 0 64) 0 = w := by
  refine BitVec.eq_of_getLsbD_eq fun i hi => ?_
  simp only [getLsbD_place_slice, Nat.zero_le, Nat.zero_add, hi, and_self, decide_true, Bool.true_and]

/-- The receiver takes back the word that the transport carries, and leaves what follows it. -/
theorem wordOfTransport?_transportBytes (w : Word) (rest : List Byte) :
    wordOfTransport? (transportBytes w ++ rest) = some (w, rest) := by
  simp only [transportBytes_eq, List.cons_append, List.nil_append, wordOfTransport?, place_low_or_next, Nat.reduceAdd,
    place_low_all]

end Sys2Proof

namespace Sys2Proof.Machine

/-! ## The data word of a decoded leaf (R181) -/

/-- A node index fits the 9 bits that carry it (R51). -/
theorem place_nodeBits (n : NodeIndex) (lo : Nat) : place (nodeBits n) lo = BitVec.ofNat 64 n.val <<< lo := by
  have hbits : (nodeBits n).setWidth 64 = BitVec.ofNat 64 n.val := by
    refine BitVec.eq_of_toNat_eq ?_
    have hn := n.isLt
    simp only [nodeBits, BitVec.toNat_setWidth, BitVec.toNat_ofNat]
    omega
  rw [place, hbits]

theorem packLeaf_false (n : NodeIndex) :
    packLeaf n false = BitVec.ofNat 64 510 <<< 16 ||| BitVec.ofNat 64 n.val <<< 8 ||| 1 := by
  simp only [packLeaf, place_nodeBits]
  rfl

theorem ne_sentinelNode {n : NodeIndex} (h : n.val ≠ 4) : n ≠ sentinelNode := fun e => h (congrArg Fin.val e)

/-! ## The frame of the built tables (R61) -/

/-- No effect but SOFT_RESET's changes a built tree, the frequencies it was built from, or its flag. -/
theorem Effect.keeps_tree {i : Instr} {s t : State} (he : Effect i s t) (hi : i ≠ .softReset)
    (htree : s.treeValid = true) : t.treeValid = true ∧ t.freq = s.freq ∧ t.node = s.node := by
  cases he with
  | softReset => exact absurd rfl hi
  | freqWrite hno | buildTree hno => rw [htree] at hno; cases hno
  | _ => simp [htree]

/-- No effect but SOFT_RESET's changes a built code table, or its flag. -/
theorem Effect.keeps_table {i : Instr} {s t : State} (he : Effect i s t) (hi : i ≠ .softReset)
    (htable : s.tableValid = true) : t.tableValid = true ∧ t.len = s.len ∧ t.code = s.code := by
  cases he with
  | softReset => exact absurd rfl hi
  | buildTable _ hno => rw [htable] at hno; cases hno
  | _ => simp [htable]

end Sys2Proof.Machine

namespace Sys2Proof.Claims

open Sys2Proof.Machine

/-! ## The words of the statements, as the model's operations -/

theorem respond_eq_afterOk (s : State) (d : Word) : s.respond d = afterOk s d := rfl

theorem errorEntry_eq_afterError (s : State) (rc : ResultCode) (opc : Byte) :
    s.errorEntry rc opc = afterError s rc opc := errorEntry_eq s rc opc

/-- A command not allowed in the state leaves the error entry of BAD_STATE, once its operand is in range (R201, R205). -/
theorem exec_badState_afterError {i : Instr} {s : State} (h : badStateWhen s i) (hw : i.wellFormed = true) :
    exec i s = .next (afterError s .badState i.opcode.toByte) := by
  rw [exec_badState h hw, raise_eq, errorEntry_eq_afterError]

theorem codeChars_eq_chars (s : State) (sym : Byte) : s.codeChars sym = chars s sym := by
  simp only [chars, State.codePath, State.codeChars, List.map_map]
  rfl

/-- What ENC_SYM leaves in SENT_IN_DATA (R161). -/
theorem or_beq_sentinel (b : Bool) (sym : Byte) :
    (b || sym == Config.sentinel) = if sym = 4 then true else b := by
  rw [show Config.sentinel = 4 from rfl]
  split
  next h4 => rw [beq_iff_eq.2 h4, Bool.or_true]
  next h4 => rw [beq_eq_false_iff_ne.2 h4, Bool.or_false]

/-! ## Emission into a port with room for it, consumed or not (R56, R235) -/

/-- ENC_SYM where the port accepts the whole code (R161). -/
theorem exec_encSym_of_room {s : State} {sym : Byte} (ha : s.encState = .active)
    (hroom : roomFor s.encRoom (s.readLen sym).toNat = true) :
    exec (.encSym sym) s = .next { afterOk s ((s.readLen sym).setWidth 64) with
      encOut := s.encOut ++ chars s sym
      encRoom := roomAfter s.encRoom (s.readLen sym).toNat
      sentInData := if sym = 4 then true else s.sentInData } := by
  rw [exec_of_effect (.encSym ha hroom), codeChars_eq_chars, or_beq_sentinel]
  rfl

/-- ENC_END where the port accepts the sentinel's whole code (R162). -/
theorem exec_encEnd_of_room {s : State} (ha : s.encState = .active)
    (hroom : roomFor s.encRoom (s.readLen 4).toNat = true) :
    exec .encEnd s = .next { afterOk s ((s.readLen 4).setWidth 64) with
      encOut := s.encOut ++ chars s 4
      encRoom := roomAfter s.encRoom (s.readLen 4).toNat
      encState := .idle } := by
  rw [exec_of_effect (.encEnd ha hroom), codeChars_eq_chars]
  rfl

/-- DEC_CHAR at the edge to a leaf other than the sentinel's, where the port accepts the leaf's byte (R181). -/
theorem exec_decChar_leaf_of_room {s : State} {b : Bool} {n : NodeIndex} (ha : s.decState = .active)
    (hn : n = s.decChild b) (hleaf : s.node[n].kind = .leaf) (hne : n.val ≠ 4) (hroom : roomFor s.decRoom 1 = true) :
    exec (.decChar (charOfBit b)) s =
      .next { afterOk s (BitVec.ofNat 64 510 <<< 16 ||| BitVec.ofNat 64 n.val <<< 8 ||| 1) with
        decCur := 510, decOut := s.decOut ++ [BitVec.ofNat 8 n.val], decRoom := roomAfter s.decRoom 1 } := by
  rw [exec_of_effect (.decLeaf ha (bitOfChar?_charOfBit b) hn hleaf (ne_sentinelNode hne) hroom), packLeaf_false]
  rfl

/-! ## The statements -/

/-- Settles O6: a word's eight byte slices join, from the low end up, to the word. -/
theorem transportIsLittleEndian : Obligations.TransportIsLittleEndian := by
  intro w
  refine ⟨by simp [transportBytes], ?_, wordOfTransport?_transportBytes w⟩
  intro k hk
  simp [transportBytes, hk]

/-- Settles O45: each command has the effect of one with room where its emission fits, and hangs where it does not. -/
theorem emissionNeedsRoom : Obligations.EmissionNeedsRoom := by
  refine ⟨?_, ?_, ?_⟩
  · intro s sym k ha hk
    refine ⟨fun hfits => ?_, fun hfull => exec_of_hangs (.encSym ha (by simpa [hk] using hfull))⟩
    rw [exec_encSym_of_room ha (by simpa [hk] using hfits), hk, roomAfter_some]
  · intro s k ha hk
    refine ⟨fun hfits => ?_, fun hfull => exec_of_hangs (.encEnd ha (by simpa [hk, Config.sentinel] using hfull))⟩
    rw [exec_encEnd_of_room ha (by simpa [hk] using hfits), hk, roomAfter_some]
  · intro s b n k ha hk hn hleaf hne
    refine ⟨fun hfits => ?_, fun hfull => ?_⟩
    · have h := exec_decChar_leaf_of_room ha hn hleaf hne (by simpa [hk] using hfits)
      rwa [hk, roomAfter_some] at h
    · exact exec_of_hangs (.decChar ha (bitOfChar?_charOfBit b) hn hleaf (ne_sentinelNode hne) (by simp [hk, hfull]))

/-- Settles O52: a read that answers OK has only responded, so its guards and its data are the same again; one that fails
has raised BAD_OPERAND or BAD_STATE. -/
theorem readsHaveNoSideEffects : Obligations.ReadsHaveNoSideEffects := by
  intro i s t hread hexec
  cases effect_of_exec hexec with
  | badOperand => exact .inr ⟨.badOperand, by decide, errorEntry_eq_afterError _ _ _⟩
  | badState => exact .inr ⟨.badState, by decide, errorEntry_eq_afterError _ _ _⟩
  | getStatus => exact .inl ⟨_, rfl, exec_of_effect .getStatus⟩
  | freqRead => exact .inl ⟨_, rfl, exec_of_effect .freqRead⟩
  | nodeRead hidx htree => exact .inl ⟨_, rfl, exec_of_effect (.nodeRead hidx htree)⟩
  | codeLenRead htable => exact .inl ⟨_, rfl, exec_of_effect (.codeLenRead htable)⟩
  | codeBitsRead hidx htable => exact .inl ⟨_, rfl, exec_of_effect (.codeBitsRead hidx htable)⟩
  | _ => cases hread

/-- Settles O53: the builders are refused by the state table of R201, and every other effect keeps what is built. -/
theorem builtTablesAreFrozen : Obligations.BuiltTablesAreFrozen := by
  refine ⟨?_, ?_, ?_⟩
  · intro s sym f htree
    exact ⟨exec_badState_afterError htree rfl, exec_badState_afterError htree rfl⟩
  · intro s htable
    exact exec_badState_afterError (.inr htable) rfl
  · intro i s t hi hexec
    have he := effect_of_exec hexec
    exact ⟨he.keeps_tree hi, he.keeps_table hi⟩

end Sys2Proof.Claims
end

section
/-! The decoder, the encoder, the match/mask table and the assembler, each by the opcode's row of R72 and the word's four
fields (R70); and the statements of spec/30_encoding.md. -/

namespace Sys2Proof

/-! ## A command by its opcode and its operands (R72, R80) -/

theorem Opcode.mem_all (o : Opcode) : o ∈ Opcode.all := by
  cases o <;> decide

@[simp] theorem opcode_build (o : Opcode) (sym : Byte) (idx : BitVec 16) (arg : Freq) :
    (o.build sym idx arg).opcode = o := by
  cases o <;> rfl

/-- R73 case b, read field by field. -/
theorem unusedZero_iff {o : Opcode} {sym : Byte} {idx : BitVec 16} {arg : Freq} :
    o.unusedZero sym idx arg = true ↔
      (o.usesSym = true ∨ sym = 0) ∧ (o.usesIdx = true ∨ idx = 0) ∧ (o.usesArg = true ∨ arg = 0) := by
  simp only [Opcode.unusedZero, Bool.and_eq_true, Bool.or_eq_true, beq_iff_eq, and_assoc]

/-- The encoder puts a field's operand in the word where the opcode uses the field, else 0 (R72). -/
theorem encode_build (o : Opcode) (sym : Byte) (idx : BitVec 16) (arg : Freq) :
    encode (o.build sym idx arg) =
      packFields o.toByte (bif o.usesSym then sym else 0) (bif o.usesIdx then idx else 0)
        (bif o.usesArg then arg else 0) := by
  cases o <;> rfl

theorem field_eq_of_used_or_zero {n : Nat} {uses : Bool} {v : BitVec n} (h : uses = true ∨ v = 0) :
    (bif uses then v else 0) = v := by
  rcases h with rfl | rfl
  · rfl
  · exact Bool.cond_self _ _

/-- Where the unused fields are zero, the encoder's word has the fields that the command was built from. -/
theorem encode_build_of_unusedZero {o : Opcode} {sym : Byte} {idx : BitVec 16} {arg : Freq}
    (h : o.unusedZero sym idx arg = true) : encode (o.build sym idx arg) = packFields o.toByte sym idx arg := by
  obtain ⟨hsym, hidx, harg⟩ := unusedZero_iff.1 h
  rw [encode_build, field_eq_of_used_or_zero hsym, field_eq_of_used_or_zero hidx, field_eq_of_used_or_zero harg]

/-- The rebuilding of a command from its encoded fields, for every command. -/
theorem fieldsRebuild (i : Instr) : Laws.FieldsRebuild.Statement i := by
  cases i with
  | nop => exact Laws.FieldsRebuild.nop
  | softReset => exact Laws.FieldsRebuild.softReset
  | getStatus => exact Laws.FieldsRebuild.getStatus
  | clearErr => exact Laws.FieldsRebuild.clearErr
  | freqWrite sym arg => exact Laws.FieldsRebuild.freqWrite sym arg
  | freqRead sym => exact Laws.FieldsRebuild.freqRead sym
  | buildTree => exact Laws.FieldsRebuild.buildTree
  | nodeRead idx => exact Laws.FieldsRebuild.nodeRead idx
  | buildTable => exact Laws.FieldsRebuild.buildTable
  | codeLenRead sym => exact Laws.FieldsRebuild.codeLenRead sym
  | codeBitsRead sym idx => exact Laws.FieldsRebuild.codeBitsRead sym idx
  | encStart => exact Laws.FieldsRebuild.encStart
  | encSym sym => exact Laws.FieldsRebuild.encSym sym
  | encEnd => exact Laws.FieldsRebuild.encEnd
  | decStart => exact Laws.FieldsRebuild.decStart
  | decChar ch => exact Laws.FieldsRebuild.decChar ch
  | decEos => exact Laws.FieldsRebuild.decEos

/-! ## What the decoder accepts (R72, R73) -/

/-- The word has the opcode's byte, and zero in every field that R72 marks `0` for it. -/
def Opcode.selects (o : Opcode) (w : Word) : Prop :=
  opcField w = o.toByte ∧ o.unusedZero (symField w) (idxField w) (argField w) = true

/-- Once its opcode is known, a word is decoded by its unused fields. -/
theorem decode_of_opcField {w : Word} {o : Opcode} (h : opcField w = o.toByte) :
    decode w = if o.unusedZero (symField w) (idxField w) (argField w) then
      .accept (o.build (symField w) (idxField w) (argField w)) else .reject .unusedField := by
  rw [decode, h, Opcode.ofByte?_toByte]

/-- The decoder accepts a word as a command exactly where the command's row selects the word and its operands are the
word's fields. -/
theorem decode_eq_accept_iff {w : Word} {i : Instr} :
    decode w = .accept i ↔ i.opcode.selects w ∧ i.opcode.build (symField w) (idxField w) (argField w) = i := by
  constructor
  · intro h
    cases ho : Opcode.ofByte? (opcField w) with
    | none => simp [decode, ho] at h
    | some o =>
      have hopc : opcField w = o.toByte := (Opcode.toByte_of_ofByte? ho).symm
      rw [decode_of_opcField hopc] at h
      split at h
      next hzero =>
        cases h
        rw [opcode_build]
        exact ⟨⟨hopc, hzero⟩, rfl⟩
      next => cases h
  · rintro ⟨⟨hopc, hzero⟩, hbuild⟩
    rw [decode_of_opcField hopc, if_pos hzero, hbuild]

/-- A row selects exactly the words that decode to its command. -/
theorem selects_iff_decode {w : Word} {o : Opcode} : o.selects w ↔ ∃ i, decode w = .accept i ∧ i.opcode = o := by
  constructor
  · rintro ⟨hopc, hzero⟩
    exact ⟨_, by rw [decode_of_opcField hopc, if_pos hzero], opcode_build ..⟩
  · rintro ⟨i, hdecode, rfl⟩
    exact (decode_eq_accept_iff.1 hdecode).1

/-! ## The match/mask pairs, field by field (R72) -/

/-- Two words are equal where their four fields are (R70). -/
theorem word_eq_iff_fields {v w : Word} :
    v = w ↔ opcField v = opcField w ∧ symField v = symField w ∧ idxField v = idxField w ∧ argField v = argField w := by
  constructor
  · rintro rfl
    exact ⟨rfl, rfl, rfl, rfl⟩
  · rintro ⟨hopc, hsym, hidx, harg⟩
    rw [← packFields_fields v, hopc, hsym, hidx, harg, packFields_fields]

/-- `match` is the row's opcode byte and zeros. -/
theorem matchWord_eq (o : Opcode) : o.matchWord = packFields o.toByte 0 0 0 := by
  cases o <;> rfl

/-- `mask` covers the opcode and every field that the row marks `0`, and no bit of an operand. -/
theorem maskWord_eq (o : Opcode) :
    o.maskWord = packFields (BitVec.allOnes 8) (bif o.usesSym then 0 else BitVec.allOnes 8)
      (bif o.usesIdx then 0 else BitVec.allOnes 16) (bif o.usesArg then 0 else BitVec.allOnes 32) := by
  cases o <;> rfl

/-- A masked field is zero where the mask lets the field's operand pass, or where the field is zero itself. -/
theorem and_unusedMask_eq_zero_iff {n : Nat} (v : BitVec n) (uses : Bool) :
    v &&& (bif uses then 0 else BitVec.allOnes n) = 0 ↔ uses = true ∨ v = 0 := by
  cases uses <;> simp

/-- The fields of a masked word are the masked fields. -/
theorem fields_and (v w : Word) :
    opcField (v &&& w) = opcField v &&& opcField w ∧ symField (v &&& w) = symField v &&& symField w ∧
      idxField (v &&& w) = idxField v &&& idxField w ∧ argField (v &&& w) = argField v &&& argField w :=
  ⟨BitVec.extractLsb'_and .., BitVec.extractLsb'_and .., BitVec.extractLsb'_and .., BitVec.extractLsb'_and ..⟩

theorem masked_eq_match_iff_selects {w : Word} {o : Opcode} : w &&& o.maskWord = o.matchWord ↔ o.selects w := by
  obtain ⟨hopc, hsym, hidx, harg⟩ := fields_and w o.maskWord
  rw [word_eq_iff_fields, hopc, hsym, hidx, harg, maskWord_eq, matchWord_eq]
  simp only [opcField_packFields, symField_packFields, idxField_packFields, argField_packFields, BitVec.and_allOnes,
    and_unusedMask_eq_zero_iff, Opcode.selects, unusedZero_iff]

end Sys2Proof

namespace Sys2Proof.Machine

/-! ## The assembler's values (R78) -/

/-- A value fits a field exactly where the field can hold it unchanged. -/
theorem fit?_eq_some {w v : Nat} {b : BitVec w} : fit? w v = some b ↔ b.toNat = v := by
  unfold fit?
  split
  next hv =>
    rw [Option.some_inj, ← BitVec.toNat_inj, BitVec.toNat_ofNat, Nat.mod_eq_of_lt hv]
    exact eq_comm
  next hv =>
    have hb := b.isLt
    simp only [reduceCtorEq, false_iff]
    omega

@[simp] theorem fit?_toNat {w : Nat} (b : BitVec w) : fit? w b.toNat = some b := fit?_eq_some.2 rfl

/-! ## The one response of a command (R71) -/

/-- Every effect of a command adds one response, and one that reports a failure carries no data. -/
theorem Effect.responds_once {i : Instr} {s t : State} (he : Effect i s t) :
    ∃ r, t.responses = s.responses ++ [r] ∧ (r.rc ≠ .ok → r.data = 0) := by
  cases he with
  | badOperand | badState | zeroFreq => exact ⟨_, errorEntry_responses _ _ _, fun _ => rfl⟩
  | malformedSymbol | malformedEos => exact ⟨_, errorEntry_responses _ _ _, fun _ => rfl⟩
  | _ => exact ⟨_, respond_responses _ _, absurd rfl⟩

end Sys2Proof.Machine

namespace Sys2Proof.Claims

open Sys2Proof.Machine

theorem operandValues_build (o : Opcode) (sym : Byte) (idx : BitVec 16) (arg : Freq) :
    operandValues (o.build sym idx arg) = (bif o.usesSym then [sym.toNat] else []) ++
      (bif o.usesIdx then [idx.toNat] else []) ++ (bif o.usesArg then [arg.toNat] else []) := by
  cases o <;> rfl

/-- The operand values of a command assemble to the command. -/
theorem assembleValues?_operandValues (i : Instr) : assembleValues? i.opcode (operandValues i) = some i := by
  cases i with
  | nop | softReset | getStatus | clearErr | buildTree | buildTable | encStart | encEnd | decStart | decEos => rfl
  | freqRead | codeLenRead | encSym | decChar | nodeRead | codeBitsRead | freqWrite =>
    simp [assembleValues?, operandValues, Instr.opcode, Opcode.usesSym, Opcode.usesIdx, Opcode.usesArg, Opcode.build]

/-- A list of values that assembles has given the command its opcode and all its operand values. -/
theorem operands_of_assembleValues? {o : Opcode} {vs : List Nat} {i : Instr} (h : assembleValues? o vs = some i) :
    i.opcode = o ∧ operandValues i = vs := by
  unfold assembleValues? at h
  split at h
  next hsym hidx harg =>
    cases h
    simp [operandValues_build, hsym, hidx, harg]
  next hsym hidx harg =>
    simp only [Option.map_eq_some_iff, fit?_eq_some] at h
    obtain ⟨sym, rfl, rfl⟩ := h
    simp [operandValues_build, hsym, hidx, harg]
  next hsym hidx harg =>
    simp only [Option.map_eq_some_iff, fit?_eq_some] at h
    obtain ⟨idx, rfl, rfl⟩ := h
    simp [operandValues_build, hsym, hidx, harg]
  next hsym hidx harg =>
    simp only [Option.bind_eq_some_iff, Option.map_eq_some_iff, fit?_eq_some] at h
    obtain ⟨sym, rfl, idx, rfl, rfl⟩ := h
    simp [operandValues_build, hsym, hidx, harg]
  next hsym hidx harg =>
    simp only [Option.bind_eq_some_iff, Option.map_eq_some_iff, fit?_eq_some] at h
    obtain ⟨sym, rfl, arg, rfl, rfl⟩ := h
    simp [operandValues_build, hsym, hidx, harg]
  next => cases h

/-! ## Illegal words (R73) -/

/-- The rows of the statements are the model's opcode map. -/
theorem opcodeRows_eq : opcodeRows = Opcode.all.map fun o => (o.toByte, o.usesSym, o.usesIdx, o.usesArg) := rfl

/-- A word is illegal exactly where no row selects it. -/
theorem illegalWord_iff {w : Word} : illegalWord w ↔ ¬ ∃ o : Opcode, o.selects w := by
  simp only [illegalWord, opcodeRows_eq, List.mem_map, Opcode.mem_all, true_and, exists_exists_eq_and]
  exact not_congr (exists_congr fun o => and_congr eq_comm unusedZero_iff.symm)

/-- The words that are not illegal are those that decode. -/
theorem not_illegalWord_iff {w : Word} : ¬ illegalWord w ↔ ∃ i, decode w = .accept i := by
  rw [illegalWord_iff, not_not]
  constructor
  · rintro ⟨o, ho⟩
    obtain ⟨i, hdecode, -⟩ := selects_iff_decode.1 ho
    exact ⟨i, hdecode⟩
  · rintro ⟨i, hdecode⟩
    exact ⟨i.opcode, selects_iff_decode.2 ⟨i, hdecode, rfl⟩⟩

/-! ## The statements -/

/-- Settles O1: a command is rebuilt from its encoded fields, which is what the decoder asks of a word. -/
theorem decodeAfterEncode : Obligations.DecodeAfterEncode := by
  intro i
  obtain ⟨hopc, hzero, hbuild⟩ := fieldsRebuild i
  exact decode_eq_accept_iff.2 ⟨⟨hopc, hzero⟩, hbuild⟩

/-- Settles O2: the command is built from the word's fields, so its encoding has those fields, and a word is its fields. -/
theorem encodeAfterDecode : Obligations.EncodeAfterDecode := by
  intro w i h
  obtain ⟨⟨hopc, hzero⟩, hbuild⟩ := decode_eq_accept_iff.1 h
  rw [← hbuild, encode_build_of_unusedZero hzero, ← hopc, packFields_fields]

/-- Settles O3: masking a word keeps its opcode and its unused fields, which are what the decoder looks at. -/
theorem maskedMatchSelectsTheCommand : Obligations.MaskedMatchSelectsTheCommand := by
  intro w o
  rw [masked_eq_match_iff_selects, selects_iff_decode]

/-- Settles O4: the words that no row of R72 selects are those the decoder rejects. -/
theorem illegalWordsChangeNothingElse : Obligations.IllegalWordsChangeNothingElse := by
  intro s w
  constructor
  · intro hw
    cases hd : decode w with
    | accept i => exact absurd hw (not_illegalWord_iff.2 ⟨i, hd⟩)
    | reject e =>
      rw [perform_reject hd, errorEntry_eq_afterError]
      rfl
  · intro hw
    obtain ⟨i, hd⟩ := not_illegalWord_iff.1 hw
    exact ⟨i, hd, perform_accept hd s⟩

/-- Settles O7: what assembles keeps the operands, and a command's own operand values assemble to it. -/
theorem assemblerKeepsEveryOperand : Obligations.AssemblerKeepsEveryOperand := by
  intro o vs i
  constructor
  · exact operands_of_assembleValues?
  · rintro ⟨rfl, rfl⟩
    exact assembleValues?_operandValues i

/-- Settles O10: an illegal word leaves the error entry's response; a command with consumed streams does not hang, and
its effect responds once. -/
theorem everyCommandAnswersOnce : Obligations.EveryCommandAnswersOnce := by
  intro s w hdrained
  obtain ⟨henc, hdec⟩ := hdrained
  cases hd : decode w with
  | accept i =>
    obtain ⟨t, hexec, he⟩ := exec_next_of_drained i henc hdec
    obtain ⟨r, hr, hdata⟩ := he.responds_once
    exact ⟨t, r, by rw [perform_accept hd, hexec], hr, hdata⟩
  | reject e => exact ⟨_, _, perform_reject hd s, errorEntry_responses _ _ _, fun _ => rfl⟩

/-- Settles O5: each word is evaluated by the decoder. -/
theorem writtenOutWordsDecode : Obligations.WrittenOutWordsDecode := by
  unfold Obligations.WrittenOutWordsDecode
  decide

end Sys2Proof.Claims
end

section
/-! The fields of a word put together from placed values (R7), the status word (R33), the word form of a command (R72,
R73) and the reset state (R230); and the statements of spec/40_control.md. -/

namespace Sys2Proof

/-! ## The slices of a placed value (R7) -/

theorem getLsbD_place_of_disjoint {n : Nat} (v : BitVec n) {lo i : Nat} (h : i < lo ∨ lo + n ≤ i) :
    (place v lo).getLsbD i = false := by
  rw [getLsbD_place]
  rcases h with hbelow | habove
  · simp [Nat.not_le.2 hbelow]
  · simp [BitVec.getLsbD_of_ge v (i - lo) (by omega)]

@[simp] theorem extractLsb'_place_same {n : Nat} (v : BitVec n) {lo : Nat} (h : lo + n ≤ 64) :
    (place v lo).extractLsb' lo n = v := by
  refine BitVec.eq_of_getLsbD_eq fun i hi => ?_
  have hfits : lo + i < 64 := by omega
  simp [hi, hfits]

@[simp] theorem extractLsb'_place_of_disjoint {n : Nat} (v : BitVec n) {lo start len : Nat}
    (h : start + len ≤ lo ∨ lo + n ≤ start) : (place v lo).extractLsb' start len = 0 := by
  refine BitVec.eq_of_getLsbD_eq fun i hi => ?_
  have hout : start + i < lo ∨ lo + n ≤ start + i := by omega
  simp [BitVec.getLsbD_extractLsb', getLsbD_place_of_disjoint v hout]

/-! ## The decoding of a packed word (R72, R73) -/

/-- A word packed with an opcode's byte is decoded by the fields it was packed from. -/
theorem decode_packFields (o : Opcode) (sym : Byte) (idx : BitVec 16) (arg : Freq) :
    decode (packFields o.toByte sym idx arg) =
      if o.unusedZero sym idx arg then .accept (o.build sym idx arg) else .reject .unusedField := by
  simpa using decode_of_opcField (opcField_packFields o.toByte sym idx arg)

end Sys2Proof

namespace Sys2Proof.Machine

/-! ## The fields of the status word (R33) -/

section

variable (s : State)

theorem statusWord_treeValid : s.statusWord.getLsbD 0 = s.treeValid := by
  simp [State.statusWord, flagBit]

theorem statusWord_tableValid : s.statusWord.getLsbD 1 = s.tableValid := by
  simp [State.statusWord, flagBit]

theorem statusWord_encState : s.statusWord.getLsbD 2 = true ↔ s.encState = .active := by
  have hbit : s.statusWord.getLsbD 2 = s.encState.toBit.getLsbD 0 := by simp [State.statusWord, flagBit]
  rw [hbit]
  cases s.encState <;> decide

theorem statusWord_decState : s.statusWord.extractLsb' 3 2 = s.decState.toBits := by
  simp [State.statusWord, BitVec.extractLsb'_or]

theorem statusWord_sentInData : s.statusWord.getLsbD 5 = s.sentInData := by
  simp [State.statusWord, flagBit]

theorem statusWord_err : s.statusWord.getLsbD 6 = s.err := by
  simp [State.statusWord, flagBit]

theorem statusWord_reserved_low : s.statusWord.getLsbD 7 = false := by
  simp [State.statusWord, flagBit]

theorem statusWord_errCode : s.statusWord.extractLsb' 8 8 = s.errCode := by
  simp [State.statusWord, BitVec.extractLsb'_or]

theorem statusWord_errOpc : s.statusWord.extractLsb' 16 8 = s.errOpc := by
  simp [State.statusWord, BitVec.extractLsb'_or]

theorem statusWord_decCur : s.statusWord.extractLsb' 24 9 = nodeBits s.decCur := by
  simp [State.statusWord, BitVec.extractLsb'_or]

theorem statusWord_reserved_high : s.statusWord.extractLsb' 33 31 = 0 := by
  simp [State.statusWord, BitVec.extractLsb'_or]

end

theorem nodeBits_toNat (n : NodeIndex) : (nodeBits n).toNat = n.val := by
  have hn := n.isLt
  rw [nodeBits, BitVec.toNat_ofNat, Nat.mod_eq_of_lt (by omega)]

theorem statusWord_reset : State.reset.statusWord = 0x00000001FE000000 := by decide

theorem statusWord_applyReset (s : State) : s.applyReset.statusWord = 0x00000001FE000000 := by
  simp only [State.statusWord, applyReset_treeValid, applyReset_tableValid, applyReset_encState, applyReset_decState,
    applyReset_sentInData, applyReset_err, applyReset_errCode, applyReset_errOpc, applyReset_decCur]
  decide

/-- The status word while the capture holds BUILD_TREE's ZERO_FREQ, nothing else having left the reset state (R102). -/
theorem statusWord_zeroFreq :
    (State.reset.errorEntry .zeroFreq Opcode.buildTree.toByte).statusWord = 0x00000001FE200440 := by decide

theorem hasZeroFreq_reset : hasZeroFreq State.reset.freq = true := by
  have hfreq : State.reset.freq.toList = List.replicate 256 0 := Vector.toList_replicate
  rw [hasZeroFreq, hfreq, List.any_replicate]
  rfl

end Sys2Proof.Machine

namespace Sys2Proof.Claims

open Sys2Proof.Machine

/-- The word form of every command, by its row of R72: the decoder accepts the packed word exactly where the row's
unused fields are zero. -/
theorem wordForm_opcode (o : Opcode) : wordForm o.toByte o.usesSym o.usesIdx o.usesArg o.build := by
  intro s sym idx arg
  have hdecode := decode_packFields o sym idx arg
  rw [← unusedZero_iff]
  constructor
  · intro hzero
    exact perform_accept (by rw [hdecode, if_pos hzero]) s
  · intro hzero
    rw [perform_reject (by rw [hdecode, if_neg hzero]), opcField_packFields, errorEntry_eq_afterError]

theorem runInstrs_cons {i : Instr} {rest : List Instr} {s t : State} (h : exec i s = .next t) :
    runInstrs (i :: rest) s = runInstrs rest t := by
  simp only [runInstrs, h]

theorem isReset_respond {s : State} (h : isReset s) (d : Word) : isReset (s.respond d) := h

/-- A reset gives every element the value that R230 lists. -/
theorem isReset_applyReset (s : State) : isReset s.applyReset :=
  ⟨fun sym => by simp [State.readFreq], rfl, rfl, rfl, rfl, rfl, rfl, rfl, rfl, rfl, statusWord_applyReset s⟩

/-! ## The statements -/

/-- Settles O18: the status word is read field by field, and each example is an exact run. -/
theorem statusWordLayout : Obligations.StatusWordLayout := by
  refine ⟨?layout, ?atReset, ?afterZeroFreq, wordForm_opcode .getStatus⟩
  case layout =>
    intro s
    have hcur : (s.statusWord.extractLsb' 24 9).toNat = s.decCur.val := by rw [statusWord_decCur, nodeBits_toNat]
    refine ⟨s.statusWord, exec_of_effect .getStatus, statusWord_treeValid s, statusWord_tableValid s,
      statusWord_encState s, ?_, statusWord_sentInData s, statusWord_err s, statusWord_reserved_low s,
      statusWord_errCode s, statusWord_errOpc s, hcur, statusWord_reserved_high s⟩
    rw [statusWord_decState]
    cases s.decState <;> rfl
  case atReset =>
    refine ⟨_, exec_of_effect .getStatus, ?_⟩
    rw [respond_responses, statusWord_reset]
    rfl
  case afterZeroFreq =>
    have hbuild := exec_of_effect (.zeroFreq (s := State.reset) rfl hasZeroFreq_reset)
    refine ⟨_, by rw [runInstrs_cons hbuild, runInstrs_cons (exec_of_effect .getStatus), runInstrs], ?_⟩
    rw [respond_responses, errorEntry_responses, statusWord_zeroFreq]
    rfl

/-- Settles O15: the effect of NOP is its response alone. -/
theorem nopDoesNothing : Obligations.NopDoesNothing :=
  ⟨fun _ => exec_of_effect .nop, wordForm_opcode .nop⟩

/-- Settles O16: the effect of SOFT_RESET is `applyReset`, which restores R230's values and keeps the streams. -/
theorem softResetRestoresTheResetState : Obligations.SoftResetRestoresTheResetState := by
  refine ⟨fun s => ?_, wordForm_opcode .softReset⟩
  exact ⟨_, exec_softReset s, isReset_respond (isReset_applyReset s) 0, by simp⟩

/-- Settles O19: the effect of CLEAR_ERR is the cleared capture and its response. -/
theorem clearErrClearsTheCapture : Obligations.ClearErrClearsTheCapture :=
  ⟨fun _ => exec_of_effect .clearErr, wordForm_opcode .clearErr⟩

end Sys2Proof.Claims
end

section
/-! The frequency table: one entry's write and reads (R9, R110), the reference profile (R113), and when BUILD_TREE accepts
the table (R112, R120); and the statements of spec/41_frequency.md. -/

namespace Sys2Proof.Machine

/-! ## Reading the table after a write (R9, R110) -/

theorem symIndex_inj {a b : Byte} : symIndex a = symIndex b ↔ a = b :=
  ⟨fun h => BitVec.eq_of_toNat_eq (congrArg Fin.val h), congrArg symIndex⟩

@[simp] theorem readFreq_writeFreq_same (s : State) (sym : Byte) (f : Freq) : (s.writeFreq sym f).readFreq sym = f := by
  simp [State.readFreq]

@[simp] theorem readFreq_writeFreq_of_ne (s : State) {sym other : Byte} (f : Freq) (h : other ≠ sym) :
    (s.writeFreq sym f).readFreq other = s.readFreq other :=
  Vector.getElem_set_ne (symIndex sym).isLt (symIndex other).isLt fun hidx => h (symIndex_inj.1 (Fin.ext hidx.symm))

theorem readFreq_writeFreq (s : State) (sym other : Byte) (f : Freq) :
    (s.writeFreq sym f).readFreq other = if other = sym then f else s.readFreq other := by
  split
  case isTrue heq => rw [heq, readFreq_writeFreq_same]
  case isFalse hne => exact readFreq_writeFreq_of_ne s f hne

/-! ## The reference profile (R113) -/

theorem one_le_profile (input : List Byte) (sym : Byte) : 1 ≤ profile input sym := le_max_right _ _

theorem profile_of_mem {input : List Byte} {sym : Byte} (h : sym ∈ input) : profile input sym = input.count sym :=
  max_eq_left (List.one_le_count_iff.2 h)

theorem profile_of_not_mem {input : List Byte} {sym : Byte} (h : sym ∉ input) : profile input sym = 1 := by
  rw [profile, occurrences, List.count_eq_zero.2 h, Nat.zero_max]

end Sys2Proof.Machine

namespace Sys2Proof.Claims

open Sys2Proof.Machine

/-! ## The tables BUILD_TREE accepts (R112, R120) -/

theorem smoothed_of_readFreq_pos {s : State} (h : ∀ sym : Byte, 1 ≤ (s.readFreq sym).toNat) : smoothed s := by
  intro sym hzero
  have hpos := h sym
  rw [hzero] at hpos
  exact absurd hpos (by decide)

theorem hasZeroFreq_eq_false_iff_smoothed {s : State} : hasZeroFreq s.freq = false ↔ smoothed s := by
  constructor
  · exact fun hnone => smoothed_of_readFreq_pos (readFreq_pos_of_no_zero hnone)
  · intro hsmooth
    refine List.any_eq_false.2 fun f hf => ?_
    obtain ⟨i, hi, rfl⟩ := Vector.mem_iff_getElem.1 (Vector.mem_toList_iff.1 hf)
    simpa [State.readFreq, symIndex] using hsmooth (BitVec.ofFin ⟨i, hi⟩)

/-- With no tree and no zero entry, BUILD_TREE leaves the arena built over the present one and answers its root's
frequency (R120). -/
theorem exec_buildTree_of_smoothed {s : State} (ht : s.treeValid = false) (h : smoothed s) :
    exec .buildTree s =
      .next ({ s with node := buildArena s.freq s.node, treeValid := true }.respond
        ((buildArena s.freq s.node)[Config.root].freq.setWidth 64)) :=
  exec_of_effect (.buildTree ht (hasZeroFreq_eq_false_iff_smoothed.2 h) rfl)

/-! ## The statements -/

/-- Settles O24: a profile's entries are at least 1, so a table that holds it is smoothed, which BUILD_TREE accepts. -/
theorem referenceProfileIsAccepted : Obligations.ReferenceProfileIsAccepted := by
  intro input s _ htree hfreq
  have hsmooth : smoothed s := smoothed_of_readFreq_pos fun sym => by
    rw [hfreq]
    exact one_le_profile input sym
  refine ⟨fun sym => ⟨one_le_profile input sym, profile_of_mem, profile_of_not_mem⟩, ?_⟩
  exact ⟨_, _, exec_buildTree_of_smoothed htree hsmooth, rfl, respond_responses _ _⟩

/-- Settles O22: FREQ_WRITE's effect is `writeFreq` and the response; a tree makes it BAD_STATE. -/
theorem freqWriteStoresOneEntry : Obligations.FreqWriteStoresOneEntry := by
  refine ⟨fun s sym f htree => ⟨?stored, ?entries⟩, fun s sym f htree => ?refused, wordForm_opcode .freqWrite⟩
  case stored => exact exec_of_effect (.freqWrite htree)
  case entries => exact fun other => readFreq_writeFreq s sym other f
  case refused => exact exec_badState_afterError (i := .freqWrite sym f) htree rfl

/-- Settles O23: the effect of FREQ_READ is its response alone, in every state. -/
theorem freqReadAnswersTheEntry : Obligations.FreqReadAnswersTheEntry :=
  ⟨fun _ _ => exec_of_effect .freqRead, wordForm_opcode .freqRead⟩

end Sys2Proof.Claims
end

section
/-! The tree builder: selection, merges and the forest they keep, the built arena's parents, children and frequencies (R121
to R131), the record's data word (R128); and the statements of spec/42_tree_builder.md. -/

namespace Sys2Proof.Machine

open Sys2Proof.Claims (isChild)

/-! ## Selection (R122) -/

theorem before_congr {node node' : Vector Node 511} {i j : NodeIndex} (hi : node[i] = node'[i])
    (hj : node[j] = node'[j]) : before node i j = before node' i j := by
  rw [before, before, hi, hj]

/-- A selection looks at the records of the members only. -/
theorem least?_congr {node node' : Vector Node 511} {c : List NodeIndex} (h : ∀ i ∈ c, node[i] = node'[i]) :
    least? node c = least? node' c := by
  induction c with
  | nil => rfl
  | cons i rest ih =>
    have hrest := ih fun j hj => h j (List.mem_cons_of_mem _ hj)
    cases hl : least? node' rest with
    | none => simp only [least?, hrest, hl]
    | some j =>
      have hj := List.mem_cons_of_mem i (least?_mem hl)
      simp only [least?, hrest, hl, before_congr (h i List.mem_cons_self) (h j hj)]

theorem select?_congr {node node' : Vector Node 511} {c : List NodeIndex} (h : ∀ i ∈ c, node[i] = node'[i]) :
    select? node c = select? node' c := by
  rw [select?, select?, least?_congr h]

/-- A collection of at least two members allows the two selections of a merge (R124). -/
theorem select?_twice (node : Vector Node 511) {c : List NodeIndex} (h : 2 ≤ c.length) :
    ∃ x c1 y c2, select? node c = some (x, c1) ∧ select? node c1 = some (y, c2) := by
  obtain ⟨x, c1, hx⟩ := select?_of_ne_nil node (List.ne_nil_of_length_pos (Nat.zero_lt_of_lt h))
  obtain ⟨hmem, rfl, -⟩ := select?_eq_some hx
  have hlen : (c.erase x).length = c.length - 1 := List.length_erase_of_mem hmem
  obtain ⟨y, c2, hy⟩ := select?_of_ne_nil node (c := c.erase x) (List.ne_nil_of_length_pos (by omega))
  exact ⟨x, _, y, c2, hx, hy⟩

/-! ## The working collection (R121, R124) -/

theorem mem_initBuild_coll {freq : Vector Freq 256} {prior : Vector Node 511} {i : NodeIndex} :
    i ∈ (initBuild freq prior).coll ↔ i.val < 256 := by
  simp only [initBuild, List.mem_map, List.mem_finRange, true_and]
  constructor
  · rintro ⟨k, rfl⟩
    exact k.isLt
  · exact fun h => ⟨⟨i.val, h⟩, rfl⟩

/-- A forest's roots stand among its nodes, one for each tree. -/
theorem roots_sublist_nodes (f : List Tree) : (f.map Tree.root).Sublist (f.flatMap Tree.nodes) := by
  induction f with
  | nil => exact List.Sublist.refl _
  | cons t f ih =>
    rw [List.map_cons, List.flatMap_cons]
    exact (List.singleton_sublist.2 t.root_mem_nodes).append ih

namespace Forest

variable {freq : Vector Freq 256} {b : Build} {f : List Tree} (hf : Forest freq b f)
include hf

/-- The members of the working collection are distinct nodes made so far. -/
theorem coll_subperm : b.coll.Subperm (below b.nextSeq) :=
  hf.roots.symm.subperm.trans ((roots_sublist_nodes f).subperm.trans hf.covers.subperm)

theorem coll_nodup : b.coll.Nodup := by
  obtain ⟨c, hperm, hsub⟩ := hf.coll_subperm
  exact hperm.nodup_iff.1 ((nodup_below _).sublist hsub)

theorem lt_nextSeq {i : NodeIndex} (hi : i ∈ b.coll) : i.val < b.nextSeq :=
  mem_below.1 (hf.coll_subperm.subset hi)

theorem coll_length : b.coll.length + b.nextSeq = 512 := by
  rw [← hf.roots.length_eq, List.length_map, hf.count]

end Forest

/-- Before merge `k` there are `256 - k` members (R124). -/
theorem merges_coll_length (freq : Vector Freq 256) (prior : Vector Node 511) {k : Nat} (hk : k ≤ 255) :
    (merges k (initBuild freq prior)).coll.length = 256 - k := by
  obtain ⟨hseq, f, hf⟩ := merges_forest freq prior hk
  have hlen := hf.coll_length
  omega

/-- Both selections of merge `k` succeed (R124). -/
theorem merges_select?_twice (freq : Vector Freq 256) (prior : Vector Node 511) {k : Nat} (hk : k ≤ 254) :
    ∃ x c1 y c2, select? (merges k (initBuild freq prior)).node (merges k (initBuild freq prior)).coll = some (x, c1) ∧
      select? (merges k (initBuild freq prior)).node c1 = some (y, c2) := by
  have hlen := merges_coll_length freq prior (k := k) (by omega)
  exact select?_twice _ (by omega)

/-! ## The arena does not depend on what it held before (R126) -/

/-- Two builds that have gone the same way: they differ at most in records that neither has made yet. -/
structure Build.Agree (b b' : Build) : Prop where
  coll    : b.coll = b'.coll
  nextSeq : b.nextSeq = b'.nextSeq
  made    : ∀ i : NodeIndex, i.val < b.nextSeq → b.node[i] = b'.node[i]

theorem initBuild_agree (freq : Vector Freq 256) (prior prior' : Vector Node 511) :
    (initBuild freq prior).Agree (initBuild freq prior') where
  coll := rfl
  nextSeq := rfl
  made i hi := by
    rw [(initBuild_forest freq prior).leaves i hi, (initBuild_forest freq prior').leaves i hi]

/-- Builds that agree select the same two members, so they make the same compound. -/
theorem Build.Agree.merge {b b' : Build} (h : b.Agree b') (hmade : ∀ i ∈ b.coll, i.val < b.nextSeq)
    (hlen : 2 ≤ b.coll.length) (hn : b.nextSeq < 511) : b.merge.Agree b'.merge := by
  obtain ⟨x, c1, y, c2, hx, hy⟩ := select?_twice b.node hlen
  obtain ⟨hxm, rfl, -⟩ := select?_eq_some hx
  obtain ⟨hym, -, -⟩ := select?_eq_some hy
  have hsame : ∀ i ∈ b.coll, b.node[i] = b'.node[i] := fun i hi => h.made i (hmade i hi)
  have hx' : select? b'.node b'.coll = some (x, b.coll.erase x) := by
    rw [← h.coll, ← select?_congr hsame, hx]
  have hy' : select? b'.node (b.coll.erase x) = some (y, c2) := by
    rw [← select?_congr fun i hi => hsame i (List.mem_of_mem_erase hi), hy]
  have hcomp : compoundNode b.node x y = compoundNode b'.node x y := by
    rw [compoundNode, compoundNode, hsame x hxm, hsame y (List.mem_of_mem_erase hym)]
  rw [Build.merge_eq hx hy hn, Build.merge_eq hx' hy' (h.nextSeq ▸ hn)]
  refine ⟨?_, ?_, fun i hi => ?_⟩
  · simp only [h.nextSeq]
  · simp only [h.nextSeq]
  · simp only [Fin.getElem_fin, Vector.getElem_set, ← h.nextSeq, hcomp]
    split
    next => rfl
    next hne => exact h.made i (Nat.lt_of_le_of_ne (Nat.le_of_lt_succ hi) (Ne.symm hne))

theorem merges_agree (freq : Vector Freq 256) (prior prior' : Vector Node 511) {k : Nat} (hk : k ≤ 255) :
    (merges k (initBuild freq prior)).Agree (merges k (initBuild freq prior')) := by
  induction k with
  | zero => exact initBuild_agree freq prior prior'
  | succ k ih =>
    obtain ⟨hseq, f, hf⟩ := merges_forest freq prior (k := k) (by omega)
    have hlen := merges_coll_length freq prior (k := k) (by omega)
    exact (ih (by omega)).merge (fun i hi => hf.lt_nextSeq hi) (by omega) (by omega)

theorem Build.Agree.node_eq {b b' : Build} (h : b.Agree b') (hn : b.nextSeq = 511) : b.node = b'.node :=
  Vector.ext fun i hi => h.made ⟨i, hi⟩ (by rw [hn]; exact hi)

/-- Stated of the function, not of its value at a table: comparing the values, the kernel would run the 255 merges. -/
theorem buildArena_eq_merges : buildArena = fun freq prior => (merges Config.nMerge (initBuild freq prior)).node := rfl

theorem merges_node_eq_buildArena (freq : Vector Freq 256) (prior : Vector Node 511) :
    (merges 255 (initBuild freq prior)).node = buildArena freq prior := by
  rw [buildArena_eq_merges, Config.nMerge]

/-- After 255 merges every record is made, so nothing of the prior arena is left (R126). -/
theorem buildArena_congr_prior (freq : Vector Freq 256) (prior prior' : Vector Node 511) :
    buildArena freq prior = buildArena freq prior' := by
  rw [buildArena_eq_merges]
  exact (merges_agree freq prior prior' (k := Config.nMerge) (le_refl 255)).node_eq
    (merges_forest freq prior (k := Config.nMerge) (le_refl 255)).1

/-! ## Parents and children in a tree (R127, R129) -/

/-- The edges of a tree, each from the parent's index to the child's. -/
def Tree.edges : Tree → List (NodeIndex × NodeIndex)
  | .leaf _ => []
  | .fork i l r => (i, l.root) :: (i, r.root) :: (l.edges ++ r.edges)

/-- Every node of a tree but its root is the child end of one edge. -/
theorem Tree.root_cons_children_perm (t : Tree) : (t.root :: t.edges.map Prod.snd).Perm t.nodes := by
  induction t with
  | leaf i => exact List.Perm.refl _
  | fork i l r ihl ihr =>
    simp only [Tree.root, Tree.edges, Tree.nodes, List.map_cons, List.map_append]
    refine List.Perm.cons i (List.Perm.trans ?_ (ihl.append ihr))
    exact List.perm_middle.symm.cons l.root

/-- The edges of a fitting tree are what the arena's records say of its nodes' children. -/
theorem Tree.Fits.mem_edges {node : Vector Node 511} {t : Tree} (h : t.Fits node) {c i : NodeIndex} :
    (c, i) ∈ t.edges ↔ c ∈ t.nodes ∧ isChild node c i := by
  induction t with
  | leaf j =>
    obtain ⟨-, hkind⟩ := h
    simp only [Tree.edges, Tree.nodes, List.not_mem_nil, List.mem_singleton, false_iff, not_and]
    rintro rfl ⟨hcomp, -⟩
    rw [hkind] at hcomp
    cases hcomp
  | fork j l r ihl ihr =>
    obtain ⟨-, hkind, hleft, hright, -, -, -, hl, hr⟩ := h
    have hself : c = j → (isChild node c i ↔ i = l.root ∨ i = r.root) := by
      rintro rfl
      simp only [isChild, hkind, hleft, hright, true_and, eq_comm]
    simp only [Tree.edges, Tree.nodes, List.mem_cons, List.mem_append, Prod.mk.injEq, ihl hl, ihr hr, or_and_right,
      and_congr_right hself, and_or_left, or_assoc]

/-- A compound of a fitting tree is the root of a fork of that tree. -/
theorem Tree.Fits.fork_of_compound {node : Vector Node 511} {t : Tree} (h : t.Fits node) {c : NodeIndex}
    (hc : c ∈ t.nodes) (hkind : node[c].kind = .compound) :
    ∃ l r : Tree, (Tree.fork c l r).Fits node ∧ (Tree.fork c l r).nodes.Sublist t.nodes ∧
      (Tree.fork c l r).leaves.Sublist t.leaves := by
  obtain ⟨u, rfl, hfit, hnodes, hleaves⟩ := h.subtree hc
  cases u with
  | leaf i => exact absurd (hfit.2.symm.trans hkind) (by decide)
  | fork i l r => exact ⟨l, r, hfit, hnodes, hleaves⟩

/-! ## Parents and children in a built arena (R127, R129) -/

section

variable (freq : Vector Freq 256) (prior : Vector Node 511)

/-- A compound of a built arena is the root of a fork that lies in it, with no node twice. -/
theorem buildArena_fork {c : NodeIndex} (hkind : (buildArena freq prior)[c].kind = .compound) :
    ∃ l r : Tree, (Tree.fork c l r).Fits (buildArena freq prior) ∧ (Tree.fork c l r).nodes.Nodup := by
  obtain ⟨t, -, hfit, hperm⟩ := buildArena_tree freq prior
  obtain ⟨l, r, hfork, hnodes, -⟩ := hfit.fork_of_compound (hperm.mem_iff.2 (List.mem_finRange c)) hkind
  exact ⟨l, r, hfork, (hperm.nodup_iff.2 (List.nodup_finRange 511)).sublist hnodes⟩

theorem buildArena_child_lt {c i : NodeIndex} (h : isChild (buildArena freq prior) c i) : i < c := by
  obtain ⟨hkind, hchild⟩ := h
  obtain ⟨l, r, ⟨-, -, hleft, hright, hl, hr, -⟩, -⟩ := buildArena_fork freq prior hkind
  rcases hchild with rfl | rfl
  · rwa [hleft]
  · rwa [hright]

theorem buildArena_left_ne_right {c : NodeIndex} (hkind : (buildArena freq prior)[c].kind = .compound) :
    (buildArena freq prior)[c].left ≠ (buildArena freq prior)[c].right := by
  obtain ⟨l, r, ⟨-, -, hleft, hright, -⟩, hnodup⟩ := buildArena_fork freq prior hkind
  rw [hleft, hright]
  have hdisj := (List.nodup_append.1 (List.nodup_cons.1 hnodup).2).2.2
  exact hdisj _ l.root_mem_nodes _ r.root_mem_nodes

/-- Every node but the root is a child of exactly one compound (R127). -/
theorem buildArena_unique_parent {i : NodeIndex} (hi : i ≠ Config.root) :
    ∃ c, isChild (buildArena freq prior) c i ∧ ∀ c', isChild (buildArena freq prior) c' i → c' = c := by
  obtain ⟨t, hroot, hfit, hperm⟩ := buildArena_tree freq prior
  have hmem : ∀ c : NodeIndex, c ∈ t.nodes := fun c => hperm.mem_iff.2 (List.mem_finRange c)
  have hedge : ∀ {c}, isChild (buildArena freq prior) c i ↔ (c, i) ∈ t.edges := fun {c} => by
    rw [hfit.mem_edges, and_iff_right (hmem c)]
  have hchildren : (t.edges.map Prod.snd).Nodup :=
    (List.nodup_cons.1 ((t.root_cons_children_perm.trans hperm).nodup_iff.2 (List.nodup_finRange 511))).2
  rcases List.mem_cons.1 (t.root_cons_children_perm.mem_iff.2 (hmem i)) with h | h
  · exact absurd (h.trans hroot) hi
  · obtain ⟨⟨c, j⟩, he, rfl⟩ := List.mem_map.1 h
    refine ⟨c, hedge.2 he, fun c' hc' => ?_⟩
    exact congrArg Prod.fst (List.inj_on_of_nodup_map hchildren (hedge.1 hc') he rfl)

/-! ## Frequencies in a built arena (R127, R131) -/

theorem buildArena_leaf_freq {i : NodeIndex} (h : i.val < 256) :
    (buildArena freq prior)[i].freq.toNat = freq[i.val].toNat := by
  rw [buildArena_leaf freq prior i h, leafNode, BitVec.toNat_setWidth_of_le (by decide)]

/-- The leaves' frequencies add up to the sum of `FREQ`. -/
theorem buildArena_leaves_sum {t : Tree} (hfit : t.Fits (buildArena freq prior))
    (hperm : t.nodes.Perm (List.finRange 511)) :
    (t.leaves.map fun i => (buildArena freq prior)[i].freq.toNat).sum = ∑ k : Fin 256, freq[k].toNat := by
  have hleaf : ∀ k : Fin 256, (buildArena freq prior)[(k.castLE (by decide) : NodeIndex)].freq.toNat = freq[k].toNat :=
    fun k => buildArena_leaf_freq freq prior k.isLt
  rw [((buildArena_leaves hfit hperm).map _).sum_eq, List.map_map, Fin.sum_univ_def]
  simp only [Function.comp_def, hleaf]

theorem sum_freq_le : ∑ k : Fin 256, freq[k].toNat ≤ 256 * (2 ^ 32 - 1) := by
  simpa using Finset.sum_le_card_nsmul Finset.univ (fun k : Fin 256 => freq[k].toNat) (2 ^ 32 - 1)
    fun k _ => Nat.le_sub_one_of_lt freq[k].isLt

/-- The leaves of a tree within the built one add up to no more than 256 times the largest entry. -/
theorem buildArena_sublist_sum_le {t : Tree} (hfit : t.Fits (buildArena freq prior))
    (hperm : t.nodes.Perm (List.finRange 511)) {leaves : List NodeIndex} (h : leaves.Sublist t.leaves) :
    (leaves.map fun i => (buildArena freq prior)[i].freq.toNat).sum ≤ 256 * (2 ^ 32 - 1) :=
  calc _ ≤ (t.leaves.map fun i => (buildArena freq prior)[i].freq.toNat).sum :=
        (h.map _).sum_le_sum fun _ _ => Nat.zero_le _
    _ = ∑ k : Fin 256, freq[k].toNat := buildArena_leaves_sum freq prior hfit hperm
    _ ≤ _ := sum_freq_le freq

theorem buildArena_root_freq :
    (buildArena freq prior)[Config.root].freq.toNat = ∑ k : Fin 256, freq[k].toNat := by
  obtain ⟨t, hroot, hfit, hperm⟩ := buildArena_tree freq prior
  have hsum := buildArena_leaves_sum freq prior hfit hperm
  have hle := sum_freq_le freq
  simpa only [hroot, hsum] using hfit.freq_eq_sum (by omega)

theorem buildArena_freq_le (i : NodeIndex) : (buildArena freq prior)[i].freq.toNat ≤ 256 * (2 ^ 32 - 1) := by
  obtain ⟨t, -, hfit, hperm⟩ := buildArena_tree freq prior
  obtain ⟨u, rfl, hu, -, hleaves⟩ := hfit.subtree (hperm.mem_iff.2 (List.mem_finRange i))
  have hle := buildArena_sublist_sum_le freq prior hfit hperm hleaves
  rw [hu.freq_eq_sum (by omega)]
  exact hle

/-- A compound's frequency is the sum of its children's, with no carry out of 40 bits (R131). -/
theorem buildArena_freq_eq_add {c : NodeIndex} (hkind : (buildArena freq prior)[c].kind = .compound) :
    (buildArena freq prior)[c].freq.toNat =
      (buildArena freq prior)[(buildArena freq prior)[c].left].freq.toNat +
        (buildArena freq prior)[(buildArena freq prior)[c].right].freq.toNat := by
  obtain ⟨t, -, hfit, hperm⟩ := buildArena_tree freq prior
  obtain ⟨l, r, hfork, -, hleaves⟩ := hfit.fork_of_compound (hperm.mem_iff.2 (List.mem_finRange c)) hkind
  have hle := buildArena_sublist_sum_le freq prior hfit hperm hleaves
  have hsum := hfork.freq_eq_sum (by omega)
  obtain ⟨-, -, hleft, hright, -, -, -, hl, hr⟩ := hfork
  simp only [Tree.leaves, List.map_append, List.sum_append] at hle hsum
  have hlsum := hl.freq_eq_sum (by omega)
  have hrsum := hr.freq_eq_sum (by omega)
  simp only [hleft, hright, hlsum, hrsum]
  exact hsum

end

/-! ## The data word of a record (R128) -/

theorem packNode_freq (n : Node) : (packNode n).extractLsb' 0 40 = n.freq := by
  simp [packNode, BitVec.extractLsb'_or]

theorem packNode_left (n : Node) : (packNode n).extractLsb' 40 9 = nodeBits n.left := by
  simp [packNode, BitVec.extractLsb'_or]

theorem packNode_right (n : Node) : (packNode n).extractLsb' 49 9 = nodeBits n.right := by
  simp [packNode, BitVec.extractLsb'_or]

theorem packNode_reserved (n : Node) : (packNode n).extractLsb' 59 5 = 0 := by
  simp [packNode, BitVec.extractLsb'_or]

theorem packNode_kind (n : Node) : (packNode n).getLsbD 58 = true ↔ n.kind = .compound := by
  have hbit : (packNode n).getLsbD 58 = (kindBit n.kind).getLsbD 0 := by simp [packNode]
  rw [hbit]
  cases n.kind <;> decide

theorem packNode_leafNode (f : Freq) : packNode (leafNode f) = f.setWidth 64 := by
  have hzero : nodeBits 0 = 0 := rfl
  simp [packNode, leafNode, place, kindBit, hzero]

/-- In a valid tree the record at a symbol's index is the leaf of its frequency (R121, R22). -/
theorem Invariant.readNode_leafIndex {s : State} (h : Invariant s) (ht : s.treeValid = true) (sym : Byte) :
    s.readNode (leafIndex sym) = leafNode (s.readFreq sym) := by
  obtain ⟨prior, hp⟩ := h.tree_current ht
  rw [State.readNode, hp, buildArena_leaf s.freq prior (leafIndex sym) sym.isLt]
  rfl

end Sys2Proof.Machine

namespace Sys2Proof.Claims

open Sys2Proof.Machine

/-- BUILD_TREE on a smoothed table, as the statements word the next state (R120). -/
theorem exec_buildTree_afterOk {s : State} {arena : Vector Node 511} (ht : s.treeValid = false) (h : smoothed s)
    (harena : arena = buildArena s.freq s.node) :
    exec .buildTree s =
      .next { afterOk s (arena[510].freq.setWidth 64) with node := arena, treeValid := true } :=
  exec_of_effect (.buildTree ht (hasZeroFreq_eq_false_iff_smoothed.2 h) harena)

theorem exec_buildTree_arena {s : State} (ht : s.treeValid = false) (h : smoothed s) :
    ∃ t, exec .buildTree s = .next t ∧ t.treeValid = true ∧ t.node = buildArena s.freq s.node := by
  obtain ⟨arena, harena⟩ : ∃ arena, arena = buildArena s.freq s.node := ⟨_, rfl⟩
  exact ⟨_, exec_buildTree_afterOk ht h harena, rfl, harena⟩

/-! ## The statements -/

/-- Settles O27: `select?` takes a member that comes before all others and erases it. -/
theorem selectionIsCanonical : Obligations.SelectionIsCanonical := by
  intro node c hne hnodup
  obtain ⟨a, c', hsel⟩ := select?_of_ne_nil node hne
  obtain ⟨hmem, rfl, hbefore⟩ := select?_eq_some hsel
  refine ⟨a, _, hsel, hmem, fun j hj hja => ?_, hnodup.erase a, fun j => ?_⟩
  · simpa only [before_iff, BitVec.lt_def, BitVec.toNat_inj, Fin.lt_def] using hbefore j hj hja
  · rw [hnodup.mem_erase_iff, and_comm]

/-- Settles O28: `Build.merge_eq` gives the build after the merge, whose arena is set at the counter's index alone. -/
theorem mergeMakesOneCompound : Obligations.MergeMakesOneCompound := by
  intro b x y c1 c2 hn hx hy
  rw [Build.merge_eq hx hy hn]
  refine ⟨rfl, Vector.getElem_set_self _, fun i hi => Vector.getElem_set_ne hn _ (Ne.symm hi), fun i => ?_⟩
  rw [List.mem_cons, Fin.ext_iff]

/-- Settles O29: the collection is the roots of a forest that covers the nodes made so far, and one tree is left. -/
theorem mergesEndWithTheRoot : Obligations.MergesEndWithTheRoot := by
  intro freq prior
  refine ⟨fun m hm => ?members, fun m hm => merges_select?_twice freq prior hm, ?last⟩
  case members =>
    obtain ⟨hseq, f, hf⟩ := merges_forest freq prior hm
    exact ⟨merges_coll_length freq prior hm, hf.coll_nodup, hseq⟩
  case last =>
    obtain ⟨t, hcoll, hroot, -⟩ := merges_final freq prior
    rw [hcoll, hroot]
    rfl

/-- Settles O30: builds over two prior arenas agree on every record made, and writes are sets of a vector's entries. -/
theorem arenaDependsOnFreqAlone : Obligations.ArenaDependsOnFreqAlone := by
  refine ⟨?arena, ?order, fun s a f g => Vector.set_set _ (symIndex a).isLt⟩
  case arena =>
    intro s s' t t' hfreq ht ht' hsmooth hexec hexec'
    have hsmooth' : smoothed s' := by
      rwa [← hasZeroFreq_eq_false_iff_smoothed, ← hfreq, hasZeroFreq_eq_false_iff_smoothed]
    obtain ⟨u, hu, -, hnode⟩ := exec_buildTree_arena ht hsmooth
    obtain ⟨u', hu', -, hnode'⟩ := exec_buildTree_arena ht' hsmooth'
    cases hexec.symm.trans hu
    cases hexec'.symm.trans hu'
    rw [hnode, hnode', ← hfreq, buildArena_congr_prior s.freq s.node s'.node]
  case order =>
    intro s a b f g hab
    exact Vector.set_comm (hi := (symIndex a).isLt) (hj := (symIndex b).isLt) _ _ fun h => hab (symIndex_inj.1 (Fin.ext h))

/-- Settles O31: the built arena holds one tree of all the nodes, whose edges say who is whose child. -/
theorem rootSumsAndUniqueParents : Obligations.RootSumsAndUniqueParents := by
  intro s ht hsmooth
  obtain ⟨t, hexec, hvalid, hnode⟩ := exec_buildTree_arena ht hsmooth
  refine ⟨t, hexec, hvalid, ?_⟩
  rw [hnode]
  refine ⟨?_, buildArena_root_freq s.freq s.node, fun i hi => ?_, fun c i => buildArena_child_lt s.freq s.node⟩
  · exact buildArena_kind s.freq s.node Config.root
  · exact buildArena_unique_parent s.freq s.node fun h => absurd (congrArg Fin.val h) (Nat.ne_of_lt hi)

/-- Settles O32: kinds go by index, a fork's two subtrees share no node, and each leaf has its one path. -/
theorem treeIsFullWithAllLeaves : Obligations.TreeIsFullWithAllLeaves := by
  intro s hinv ht
  obtain ⟨prior, hnode⟩ := hinv.tree_current ht
  rw [hnode]
  refine ⟨fun i => ?_, fun c => buildArena_left_ne_right s.freq prior, fun sym => ?_⟩
  · rw [buildArena_kind]
    split <;> simp [*]
  · obtain ⟨p, hpos, hmax, hfollow, hunique, -⟩ := buildStore_symbol s.freq prior { len := s.len, code := s.code } sym
    exact ⟨p, hpos, hmax, hfollow, hunique⟩

/-- Settles O33: on equal frequencies the canonical order is that of the indices. -/
theorem tiesGoToTheOlderNode : Obligations.TiesGoToTheOlderNode := by
  intro node c c' a j hsel hj hfreq
  obtain ⟨-, -, hbefore⟩ := select?_eq_some hsel
  have hle : a ≤ j := by
    by_cases hja : j = a
    · exact hja.ge
    · rcases before_iff.1 (hbefore j hj hja) with hlt | ⟨-, hlt⟩
      · exact absurd hlt (by rw [hfreq]; exact BitVec.lt_irrefl _)
      · exact hlt.le
  rw [Fin.le_def] at hle
  omega

/-- Settles O34: every node is the root of a subtree of the built tree, whose leaves' sum fits 40 bits. -/
theorem nodeFrequenciesAreExact : Obligations.NodeFrequenciesAreExact := by
  intro s hinv ht
  obtain ⟨prior, hnode⟩ := hinv.tree_current ht
  have hread : ∀ i, s.readNode i = (buildArena s.freq prior)[i] := fun i => by rw [State.readNode, hnode]
  simp only [hread]
  exact ⟨fun c => buildArena_freq_eq_add s.freq prior, buildArena_freq_le s.freq prior⟩

/-- Settles O25: BUILD_TREE has one effect for each of its checks' outcomes. -/
theorem buildTreeBuildsOrRefuses : Obligations.BuildTreeBuildsOrRefuses := by
  refine ⟨fun s ht => ?_, fun s ht hzero => ?_, fun s ht hsmooth => ?_, wordForm_opcode .buildTree⟩
  · exact exec_badState_afterError (i := .buildTree) ht rfl
  · have hnot : ¬ smoothed s := fun h => hzero.elim h
    rw [← hasZeroFreq_eq_false_iff_smoothed, Bool.not_eq_false] at hnot
    rw [exec_of_effect (.zeroFreq ht hnot), errorEntry_eq_afterError]
    rfl
  · exact exec_buildTree_afterOk ht hsmooth (merges_node_eq_buildArena s.freq s.node)

/-- Settles O26: the initial build is a forest of leaves, all of them in the collection. -/
theorem buildStartsFromTheLeaves : Obligations.BuildStartsFromTheLeaves := by
  intro freq prior
  have hforest := initBuild_forest freq prior
  exact ⟨fun sym => hforest.leaves (leafIndex sym) sym.isLt, hforest.coll_nodup, fun _ => mem_initBuild_coll, rfl⟩

/-- Settles O35: NODE_READ has one effect for each of its checks' outcomes, and `packNode` is read field by field. -/
theorem nodeReadAnswersTheRecord : Obligations.NodeReadAnswersTheRecord := by
  refine ⟨fun s idx hidx => ?range, fun s idx hidx ht => ?noTree, fun s idx i hidx ht => ?fields,
    fun s sym hinv ht => ?leaf, wordForm_opcode .nodeRead⟩
  case range =>
    have hwf : (Instr.nodeRead idx).wellFormed = false := by simpa [Instr.wellFormed] using hidx
    rw [exec_of_effect (.badOperand hwf), errorEntry_eq_afterError]
    rfl
  case noTree => exact exec_badState_afterError (i := .nodeRead idx) ht (by simpa [Instr.wellFormed] using hidx)
  case fields =>
    refine ⟨packNode (s.readNode i), exec_of_effect (.nodeRead (nodeIndex?_eq_some.2 hidx) ht), packNode_freq _, ?_, ?_,
      packNode_kind _, packNode_reserved _⟩
    · rw [packNode_left, nodeBits_toNat, State.readNode]
    · rw [packNode_right, nodeBits_toNat, State.readNode]
  case leaf =>
    have hidx : (sym.setWidth 16).toNat = (leafIndex sym).val := BitVec.toNat_setWidth_of_le (by decide)
    rw [exec_of_effect (.nodeRead (nodeIndex?_eq_some.2 hidx) ht), hinv.readNode_leafIndex ht, packNode_leafNode]
    rfl

end Sys2Proof.Claims
end

section
/-! The code table: the shortest and the longest length (R140), the walk as a relation (R140), the stored codes as the tree's
paths (R144), of which none begins another, and their Kraft sum (R142); and the statements of spec/43_code_table.md. -/

namespace Sys2Proof.Machine

open Sys2Proof.Claims (Walks)

/-! ## The shortest and the longest length (R140) -/

theorem mem_lens (len : Vector CodeLen 256) (k : Fin 256) : len[k].toNat ∈ len.toList.map BitVec.toNat :=
  List.mem_map_of_mem (Vector.mem_toList_iff.2 (Vector.getElem_mem k.isLt))

theorem exists_of_mem_lens {len : Vector CodeLen 256} {n : Nat} (h : n ∈ len.toList.map BitVec.toNat) :
    ∃ k : Fin 256, len[k].toNat = n := by
  obtain ⟨l, hl, rfl⟩ := List.mem_map.1 h
  obtain ⟨i, hi, rfl⟩ := Vector.mem_iff_getElem.1 (Vector.mem_toList_iff.1 hl)
  exact ⟨⟨i, hi⟩, rfl⟩

/-- The longest length is the greatest of the lengths and of the 0 that the fold starts from. -/
theorem maxLen_spec (len : Vector CodeLen 256) :
    maxLen len ∈ 0 :: len.toList.map BitVec.toNat ∧ ∀ n ∈ 0 :: len.toList.map BitVec.toNat, n ≤ maxLen len :=
  List.max?_eq_some_iff.1 List.max?_cons'

/-- The shortest length is the least of the lengths and of the 255 that the fold starts from. -/
theorem minLen_spec (len : Vector CodeLen 256) :
    minLen len ∈ 255 :: len.toList.map BitVec.toNat ∧ ∀ n ∈ 255 :: len.toList.map BitVec.toNat, minLen len ≤ n :=
  List.min?_eq_some_iff.1 List.min?_cons'

theorem le_maxLen (len : Vector CodeLen 256) (k : Fin 256) : len[k].toNat ≤ maxLen len :=
  (maxLen_spec len).2 _ (List.mem_cons_of_mem _ (mem_lens len k))

theorem minLen_le (len : Vector CodeLen 256) (k : Fin 256) : minLen len ≤ len[k].toNat :=
  (minLen_spec len).2 _ (List.mem_cons_of_mem _ (mem_lens len k))

theorem exists_eq_maxLen (len : Vector CodeLen 256) : ∃ k : Fin 256, len[k].toNat = maxLen len := by
  rcases List.mem_cons.1 (maxLen_spec len).1 with hzero | hmem
  · exact ⟨0, le_antisymm (le_maxLen len 0) (by omega)⟩
  · exact exists_of_mem_lens hmem

theorem exists_eq_minLen (len : Vector CodeLen 256) : ∃ k : Fin 256, len[k].toNat = minLen len := by
  rcases List.mem_cons.1 (minLen_spec len).1 with htop | hmem
  · have hle : len[(0 : Fin 256)].toNat ≤ 255 := Nat.le_of_lt_succ len[(0 : Fin 256)].isLt
    exact ⟨0, le_antisymm (by omega) (minLen_le len 0)⟩
  · exact exists_of_mem_lens hmem

theorem packMinMax_min (len : Vector CodeLen 256) : (packMinMax len).extractLsb' 0 8 = BitVec.ofNat 8 (minLen len) := by
  simp [packMinMax, BitVec.extractLsb'_or]

theorem packMinMax_max (len : Vector CodeLen 256) : (packMinMax len).extractLsb' 8 8 = BitVec.ofNat 8 (maxLen len) := by
  simp [packMinMax, BitVec.extractLsb'_or]

theorem packMinMax_reserved (len : Vector CodeLen 256) : (packMinMax len).extractLsb' 16 48 = 0 := by
  simp [packMinMax, BitVec.extractLsb'_or]

/-- The low byte of BUILD_TABLE's answer is the least length: one symbol's, and no more than any. -/
theorem packMinMax_least (len : Vector CodeLen 256) :
    (∃ k : Fin 256, len[k] = (packMinMax len).extractLsb' 0 8) ∧
      ∀ k : Fin 256, ((packMinMax len).extractLsb' 0 8).toNat ≤ len[k].toNat := by
  obtain ⟨k, hk⟩ := exists_eq_minLen len
  have hmin : (packMinMax len).extractLsb' 0 8 = len[k] := by
    rw [packMinMax_min, ← hk, BitVec.ofNat_toNat, BitVec.setWidth_eq]
  exact ⟨⟨k, hmin.symm⟩, fun j => by rw [hmin, hk]; exact minLen_le len j⟩

/-- The next byte is the greatest length: one symbol's, and no less than any. -/
theorem packMinMax_greatest (len : Vector CodeLen 256) :
    (∃ k : Fin 256, len[k] = (packMinMax len).extractLsb' 8 8) ∧
      ∀ k : Fin 256, len[k].toNat ≤ ((packMinMax len).extractLsb' 8 8).toNat := by
  obtain ⟨k, hk⟩ := exists_eq_maxLen len
  have hmax : (packMinMax len).extractLsb' 8 8 = len[k] := by
    rw [packMinMax_max, ← hk, BitVec.ofNat_toNat, BitVec.setWidth_eq]
  exact ⟨⟨k, hmax.symm⟩, fun j => by rw [hmax, hk]; exact le_maxLen len j⟩

/-! ## The walk as a relation (R140) -/

/-- A path of at most 255 edges is stored with zeros above it. -/
theorem getLsbD_pathBits_of_length_le {p : List Bool} (h : p.length ≤ 255) (i : Nat) :
    (pathBits p).getLsbD i = (decide (i < p.length) && p.getD i false) := by
  rw [getLsbD_pathBits]
  by_cases hi : i < p.length
  · simp [hi, Nat.lt_of_lt_of_le hi h]
  · simp [hi]

/-- Recording a fitting tree's leaves with their paths, left subtree first, is the walk of R140. -/
theorem Tree.Fits.walks {node : Vector Node 511} {t : Tree} (h : t.Fits node) {q : List Bool}
    (hq : q.length + t.height ≤ 255) (st : CodeStore) :
    Walks node t.root q q.length st ((t.paths q).foldl CodeStore.recordPath st) := by
  induction t generalizing q st with
  | leaf i =>
    obtain ⟨hlt, hkind⟩ := h
    have hrecord : st.recordPath (i, q) =
        { len := st.len.set i.val (BitVec.ofNat 8 q.length), code := st.code.set i.val (pathBits q) } := dif_pos hlt
    simp only [Tree.paths, List.foldl_cons, List.foldl_nil, hrecord]
    exact .leaf hlt hkind hq (getLsbD_pathBits_of_length_le hq)
  | fork i l r ihl ihr =>
    obtain ⟨-, hkind, hleft, hright, -, -, -, hl, hr⟩ := h
    simp only [Tree.height] at hq
    have hwalkl := ihl hl (q := q ++ [false]) (by rw [List.length_append, List.length_singleton]; omega) st
    have hwalkr := ihr hr (q := q ++ [true]) (by rw [List.length_append, List.length_singleton]; omega)
      ((l.paths (q ++ [false])).foldl CodeStore.recordPath st)
    rw [List.length_append, List.length_singleton, ← hleft] at hwalkl
    rw [List.length_append, List.length_singleton, ← hright] at hwalkr
    simp only [Tree.paths, List.foldl_append]
    exact .compound hkind hwalkl hwalkr

/-- A fitting tree under node 510 is no higher than the longest code (R129). -/
theorem Tree.Fits.height_le_of_root {node : Vector Node 511} {t : Tree} (h : t.Fits node) (hroot : t.root = Config.root) :
    t.height ≤ 255 := by
  have hle := h.height_le
  rwa [hroot] at hle

/-- The store built from a built arena is what the walk from node 510 leaves. -/
theorem buildStore_walks (freq : Vector Freq 256) (prior : Vector Node 511) (st : CodeStore) :
    Walks (buildArena freq prior) Config.root [] 0 st (buildStore (buildArena freq prior) st) := by
  obtain ⟨t, hroot, hfit, -⟩ := buildArena_tree freq prior
  have hheight := hfit.height_le_of_root hroot
  have hwalk := walk_tree hfit (fuel := 511) (by omega) [] st
  rw [hroot, List.length_nil] at hwalk
  rw [buildStore, hwalk, ← hroot]
  exact hfit.walks (q := []) (by simpa using hheight) st

/-! ## The stored codes are the tree's paths (R144) -/

theorem readLen_le (s : State) (sym : Byte) : (s.readLen sym).toNat ≤ 255 := Nat.le_of_lt_succ (s.readLen sym).isLt

theorem codePath_length (s : State) (sym : Byte) : (s.codePath sym).length = (s.readLen sym).toNat := by
  simp [State.codePath]

/-- A code stored as a path of at most 255 edges is read back as that path. -/
theorem codePath_eq_of_stored {s : State} {sym : Byte} {p : List Bool} (hp : p.length ≤ 255)
    (hlen : s.readLen sym = BitVec.ofNat 8 p.length) (hcode : s.readCode sym = pathBits p) : s.codePath sym = p := by
  have hlength : (BitVec.ofNat 8 p.length).toNat = p.length := by
    rw [BitVec.toNat_ofNat, Nat.mod_eq_of_lt (by omega)]
  rw [State.codePath, hlen, hcode, hlength, path_of_pathBits hp]

/-- A leaf is left by no edge, so a path followed from it ends where it begins. -/
theorem follow_leaf {node : Vector Node 511} {n m : NodeIndex} {p : List Bool} (hk : node[n].kind = .leaf)
    (h : follow node n p = some m) : n = m := by
  cases p with
  | nil => exact Option.some.inj h
  | cons b p => rw [follow_cons_leaf hk] at h; cases h

theorem leafIndex_inj {a b : Byte} : leafIndex a = leafIndex b ↔ a = b := by
  rw [Fin.ext_iff, ← BitVec.toNat_inj]
  rfl

namespace Invariant

variable {s : State} (h : Invariant s) (htable : s.tableValid = true)
include h htable

/-- In a valid code table each symbol's store entry is the one path from the root to its leaf (R26, R144). -/
theorem stored_path (sym : Byte) :
    s.readCode sym = pathBits (s.codePath sym) ∧ 1 ≤ (s.readLen sym).toNat ∧
      follow s.node Config.root (s.codePath sym) = some (leafIndex sym) ∧
      ∀ p, follow s.node Config.root p = some (leafIndex sym) → p = s.codePath sym := by
  obtain ⟨prior, hnode⟩ := h.tree_current (h.table_needs_tree htable)
  obtain ⟨st, hlen, hcode⟩ := h.table_current htable
  rw [hnode] at hlen hcode ⊢
  obtain ⟨p, hpos, hmax, hfollow, hunique, hplen, hpcode⟩ := buildStore_symbol s.freq prior st sym
  rw [← hcode] at hpcode
  rw [← hlen] at hplen
  have hpath : s.codePath sym = p := codePath_eq_of_stored hmax hplen hpcode
  rw [← codePath_length, hpath]
  exact ⟨hpcode, hpos, hfollow, hunique⟩

theorem readLen_pos (sym : Byte) : 1 ≤ (s.readLen sym).toNat := by
  obtain ⟨-, hpos, -⟩ := h.stored_path htable sym
  exact hpos

theorem follow_codePath (sym : Byte) : follow s.node Config.root (s.codePath sym) = some (leafIndex sym) := by
  obtain ⟨-, -, hfollow, -⟩ := h.stored_path htable sym
  exact hfollow

theorem codePath_unique {sym : Byte} {p : List Bool} (hp : follow s.node Config.root p = some (leafIndex sym)) :
    p = s.codePath sym := by
  obtain ⟨-, -, -, hunique⟩ := h.stored_path htable sym
  exact hunique p hp

/-! ## Completeness, no code begins another, the Kraft sum (R142) -/

/-- Above a code's length its stored bits are 0. -/
theorem readCode_above (sym : Byte) {i : Nat} (hi : (s.readLen sym).toNat ≤ i) : (s.readCode sym).getLsbD i = false := by
  obtain ⟨hcode, -⟩ := h.stored_path htable sym
  have hlen := codePath_length s sym
  have hmax := readLen_le s sym
  rw [hcode, getLsbD_pathBits_of_length_le (by omega), hlen]
  simp [hi]

/-- A code that begins another would go on from a leaf. -/
theorem codePath_not_isPrefix {a b : Byte} (hab : a ≠ b) : ¬ s.codePath a <+: s.codePath b := by
  rintro ⟨r, hr⟩
  have hfollow := h.follow_codePath htable b
  rw [← hr, follow_append (h.follow_codePath htable a)] at hfollow
  have hkind : (s.readNode (leafIndex a)).kind = .leaf := by
    rw [h.readNode_leafIndex (h.table_needs_tree htable), leafNode]
  exact hab (leafIndex_inj.1 (follow_leaf hkind hfollow))

end Invariant

/-- The Kraft sum of a tree under a path of `q.length` edges, scaled by 2 to the 255: each fork halves its share. -/
theorem Tree.paths_kraft_sum {t : Tree} {q : List Bool} (hq : q.length + t.height ≤ 255) :
    ((t.paths q).map fun e => 2 ^ (255 - e.2.length)).sum = 2 ^ (255 - q.length) := by
  induction t generalizing q with
  | leaf i => simp [Tree.paths]
  | fork i l r ihl ihr =>
    simp only [Tree.height] at hq
    have hsuml := ihl (q := q ++ [false]) (by rw [List.length_append, List.length_singleton]; omega)
    have hsumr := ihr (q := q ++ [true]) (by rw [List.length_append, List.length_singleton]; omega)
    rw [List.length_append, List.length_singleton] at hsuml hsumr
    have hdouble : 255 - q.length = 255 - (q.length + 1) + 1 := by omega
    rw [Tree.paths, List.map_append, List.sum_append, hsuml, hsumr, hdouble, pow_succ]
    omega

/-- In a valid code table the lengths add up to a Kraft sum of 1: they are the lengths of the built tree's paths. -/
theorem Invariant.kraft_sum {s : State} (h : Invariant s) (htable : s.tableValid = true) :
    ∑ k : Fin 256, 2 ^ (255 - s.len[k].toNat) = 2 ^ 255 := by
  obtain ⟨prior, hnode⟩ := h.tree_current (h.table_needs_tree htable)
  obtain ⟨t, hroot, hfit, hperm⟩ := buildArena_tree s.freq prior
  have hlength : ∀ e ∈ t.paths [], e.2.length = (s.readLen (BitVec.ofNat 8 e.1.val)).toNat := by
    intro e he
    obtain ⟨r, hr, hfollow⟩ := hfit.follow_paths he
    have hleaf : e.1 = leafIndex (BitVec.ofNat 8 e.1.val) := by
      have hmem : e.1 ∈ t.leaves := t.paths_keys [] ▸ List.mem_map_of_mem he
      have hlt : e.1.val < 256 := (hfit.mem_leaves (hperm.mem_iff.2 (List.mem_finRange _))).1 hmem
      exact Fin.ext (Nat.mod_eq_of_lt hlt).symm
    rw [hroot, hleaf, ← hnode] at hfollow
    rw [hr, List.nil_append, h.codePath_unique htable hfollow, codePath_length]
  have hread : ∀ k : Fin 256, s.readLen (BitVec.ofNat 8 k.val) = s.len[k] := fun k => by
    simp only [State.readLen, symIndex, BitVec.toFin_ofNat, Fin.ofNat_eq_cast, Fin.cast_val_eq_self]
  calc ∑ k : Fin 256, 2 ^ (255 - s.len[k].toNat)
      = (t.leaves.map fun i => 2 ^ (255 - (s.readLen (BitVec.ofNat 8 i.val)).toNat)).sum := by
        rw [((buildArena_leaves hfit hperm).map _).sum_eq, List.map_map, Fin.sum_univ_def]
        simp only [Function.comp_def, Fin.val_castLE, hread]
    _ = ((t.paths []).map fun e => 2 ^ (255 - e.2.length)).sum := by
        rw [← t.paths_keys [], List.map_map]
        exact congrArg List.sum (List.map_congr_left fun e he => by rw [hlength e he]; rfl)
    _ = 2 ^ 255 := t.paths_kraft_sum (q := []) (by simpa using hfit.height_le_of_root hroot)

/-! ## The data word of a window (R143) -/

/-- A window stands in the low half of the data word. -/
theorem codeWindow_high (len : CodeLen) (code : CodeBits) (w : Fin 8) :
    ((codeWindow len code w).setWidth 64).extractLsb' 32 32 = 0 := by
  refine BitVec.eq_of_getLsbD_eq fun i hi => ?_
  simp [BitVec.getLsbD_of_ge]

end Sys2Proof.Machine

namespace Sys2Proof.Claims

open Sys2Proof.Machine

/-- BUILD_TABLE on a valid tree without a table, as the statements word the next state (R140). -/
theorem exec_buildTable_afterOk {s : State} {st : CodeStore} (ht : s.treeValid = true) (htable : s.tableValid = false)
    (hst : st = buildStore s.node { len := s.len, code := s.code }) :
    exec .buildTable s =
      .next { afterOk s (packMinMax st.len) with len := st.len, code := st.code, tableValid := true } :=
  exec_of_effect (.buildTable ht htable hst)

/-! ## The statements -/

/-- Settles O36: the store BUILD_TABLE leaves is the walk's over the built arena, and `packMinMax` is read field by field. -/
theorem buildTableWalksTheTree : Obligations.BuildTableWalksTheTree := by
  refine ⟨fun s hbad => ?refused, fun s hinv ht htable => ?built, wordForm_opcode .buildTable⟩
  case refused => exact exec_badState_afterError (i := .buildTable) hbad rfl
  case built =>
    obtain ⟨prior, hnode⟩ := hinv.tree_current ht
    obtain ⟨st, hst⟩ : ∃ st, st = buildStore s.node { len := s.len, code := s.code } := ⟨_, rfl⟩
    have hwalk : Walks s.node Config.root [] 0 { len := s.len, code := s.code } st := by
      rw [hst, hnode]
      exact buildStore_walks s.freq prior _
    obtain ⟨hleast, hle⟩ := packMinMax_least st.len
    obtain ⟨hgreatest, hge⟩ := packMinMax_greatest st.len
    exact ⟨st, packMinMax st.len, hwalk, exec_buildTable_afterOk ht htable hst, fun k => ⟨hle k, hge k⟩, hleast, hgreatest,
      packMinMax_reserved st.len⟩

/-- Settles O37: BUILD_TABLE leaves a state that meets the invariant, whose stored codes are the tree's paths. -/
theorem codesAreTheTreePaths : Obligations.CodesAreTheTreePaths := by
  intro s hinv ht htable
  obtain ⟨st, hst⟩ : ∃ st, st = buildStore s.node { len := s.len, code := s.code } := ⟨_, rfl⟩
  have hinv' := (hinv.withTable ht hst).respond (packMinMax st.len)
  exact ⟨_, exec_of_effect (.buildTable ht htable hst), rfl,
    fun sym => ⟨hinv'.follow_codePath rfl sym, fun p => hinv'.codePath_unique rfl⟩⟩

/-- Settles O38: codes are the paths to the built tree's leaves. -/
theorem codeTableIsCompleteAndFree : Obligations.CodeTableIsCompleteAndFree := by
  intro s hinv htable
  exact ⟨fun sym => ⟨hinv.readLen_pos htable sym, readLen_le s sym, fun i => hinv.readCode_above htable sym⟩,
    fun a b => hinv.codePath_not_isPrefix htable, hinv.kraft_sum htable⟩

/-- Settles O39: the effect of CODE_LEN_READ is its response, and a path from the root to a leaf has an edge. -/
theorem codeLenReadAnswersTheLength : Obligations.CodeLenReadAnswersTheLength := by
  refine ⟨fun s sym htable => ?refused, fun s sym htable => ⟨?answer, fun hinv hzero => ?positive⟩,
    wordForm_opcode .codeLenRead⟩
  case refused => exact exec_badState_afterError (i := .codeLenRead sym) htable rfl
  case answer => exact exec_of_effect (.codeLenRead htable)
  case positive =>
    have hpos := hinv.readLen_pos htable sym
    rw [show s.readLen sym = 0 from hzero] at hpos
    exact absurd hpos (by decide)

/-- Settles O40: CODE_BITS_READ has one effect for each of its checks' outcomes, and `codeWindow` is read bit by bit. -/
theorem codeBitsReadAnswersOneWindow : Obligations.CodeBitsReadAnswersOneWindow := by
  refine ⟨fun s sym idx hidx => ?range, fun s sym idx hidx htable => ?noTable, fun s sym idx hidx htable => ?window,
    wordForm_opcode .codeBitsRead⟩
  case range =>
    have hwf : (Instr.codeBitsRead sym idx).wellFormed = false := by simpa [Instr.wellFormed] using hidx
    rw [exec_of_effect (.badOperand hwf), errorEntry_eq_afterError]
    rfl
  case noTable =>
    exact exec_badState_afterError (i := .codeBitsRead sym idx) htable (by simpa [Instr.wellFormed] using hidx)
  case window =>
    obtain ⟨w, hw⟩ : ∃ w : Fin 8, idx.toNat = w.val := ⟨⟨idx.toNat, by omega⟩, rfl⟩
    refine ⟨_, exec_of_effect (.codeBitsRead (window?_eq_some.2 hw) htable), fun j hj => ?_, codeWindow_high _ _ w⟩
    have hj64 : j < 64 := by omega
    rw [BitVec.getLsbD_setWidth, getLsbD_codeWindow, hw]
    simp only [hj, hj64, decide_true, Bool.true_and, Bool.and_eq_true, decide_eq_true_eq]
    rfl

end Sys2Proof.Claims
end

section
/-! Encode operations: the encoder's commands on a consumed stream (R160 to R162), what a command of another side leaves
(R163, R165), a whole operation's run and the decoding of its output (R183); and the statements of spec/44_encoder.md. -/

namespace Sys2Proof.Machine

open Sys2Proof.Claims

/-! ## The two codec sides (R165) -/

section

variable {s s' : State} (h : sameEncoderSide s s')
include h

theorem readLen_eq_of_sameEncoderSide (sym : Byte) : s.readLen sym = s'.readLen sym := by
  obtain ⟨hlen, -⟩ := h
  rw [State.readLen, State.readLen, hlen]

theorem codeChars_eq_of_sameEncoderSide (sym : Byte) : s.codeChars sym = s'.codeChars sym := by
  have hread := readLen_eq_of_sameEncoderSide h sym
  obtain ⟨-, hcode, -⟩ := h
  rw [State.codeChars, State.codeChars, hread, State.readCode, State.readCode, hcode]

theorem sameEncoderSide_errorEntry (rc : ResultCode) (opc : Byte) :
    sameEncoderSide (s.errorEntry rc opc) (s'.errorEntry rc opc) := by
  simpa [sameEncoderSide] using h

/-- An encoder command that completes has the same effect in a state with the same encoder's side. -/
theorem Effect.transport_encoder {i : Instr} {t : State} (hi : isEncoder i = true) (he : Effect i s t) :
    ∃ t' out r, Effect i s' t' ∧ sameEncoderSide t t' ∧ t.encOut = s.encOut ++ out ∧ t'.encOut = s'.encOut ++ out ∧
      t.responses = s.responses ++ [r] ∧ t'.responses = s'.responses ++ [r] := by
  have hread := readLen_eq_of_sameEncoderSide h
  have hchars := codeChars_eq_of_sameEncoderSide h
  have herror := sameEncoderSide_errorEntry h
  obtain ⟨hlen, hcode, htable, hstate, hsent, hroom⟩ := h
  cases he with
  | badOperand hw =>
    exact ⟨_, [], _, .badOperand hw, herror _ _, by simp, by simp, errorEntry_responses _ _ _,
      errorEntry_responses _ _ _⟩
  | badState hw hbad =>
    have hbad' : badStateWhen s' i := by
      cases i with
      | encStart | encSym | encEnd => simpa only [badStateWhen, htable, hstate] using hbad
      | _ => cases hi
    exact ⟨_, [], _, .badState hw hbad', herror _ _, by simp, by simp, errorEntry_responses _ _ _,
      errorEntry_responses _ _ _⟩
  | encStart hvalid hidle =>
    exact ⟨_, [], _, .encStart (htable ▸ hvalid) (hstate ▸ hidle), ⟨hlen, hcode, htable, rfl, rfl, hroom⟩,
      by simp, by simp, rfl, rfl⟩
  | encSym ha hfits =>
    rw [hread, hroom] at hfits
    refine ⟨_, _, _, .encSym (hstate ▸ ha) hfits, ⟨hlen, hcode, htable, hstate, ?_, ?_⟩, rfl, ?_, rfl, ?_⟩
    · simp [hsent]
    · simp [hread, hroom]
    · simp [hchars]
    · simp [hread]
  | encEnd ha hfits =>
    rw [hread, hroom] at hfits
    refine ⟨_, _, _, .encEnd (hstate ▸ ha) hfits, ⟨hlen, hcode, htable, rfl, hsent, ?_⟩, rfl, ?_, rfl, ?_⟩
    · simp [hread, hroom]
    · simp [hchars]
    · simp [hread]
  | _ => cases hi

end

section

variable {s s' : State} (h : sameDecoderSide s s')
include h

theorem decChild_eq_of_sameDecoderSide (b : Bool) : s.decChild b = s'.decChild b := by
  obtain ⟨hnode, -, -, hcur, -⟩ := h
  rw [State.decChild, State.decChild, State.readNode, State.readNode, hnode, hcur]

theorem sameDecoderSide_errorEntry (rc : ResultCode) (opc : Byte) :
    sameDecoderSide (s.errorEntry rc opc) (s'.errorEntry rc opc) := by
  simpa [sameDecoderSide] using h

theorem sameDecoderSide_abortDecode : sameDecoderSide s.abortDecode s'.abortDecode := by
  obtain ⟨hnode, htree, -, -, hroom⟩ := h
  exact ⟨hnode, htree, rfl, rfl, hroom⟩

/-- A decoder command that completes has the same effect in a state with the same decoder's side. -/
theorem Effect.transport_decoder {i : Instr} {t : State} (hi : isDecoder i = true) (he : Effect i s t) :
    ∃ t' out r, Effect i s' t' ∧ sameDecoderSide t t' ∧ t.decOut = s.decOut ++ out ∧ t'.decOut = s'.decOut ++ out ∧
      t.responses = s.responses ++ [r] ∧ t'.responses = s'.responses ++ [r] := by
  have hchild := decChild_eq_of_sameDecoderSide h
  have herror := sameDecoderSide_errorEntry h
  have habort := sameDecoderSide_errorEntry (sameDecoderSide_abortDecode h)
  obtain ⟨hnode, htree, hstate, hcur, hroom⟩ := h
  cases he with
  | badOperand hw =>
    exact ⟨_, [], _, .badOperand hw, herror _ _, by simp, by simp, errorEntry_responses _ _ _,
      errorEntry_responses _ _ _⟩
  | badState hw hbad =>
    have hbad' : badStateWhen s' i := by
      cases i with
      | decStart | decChar | decEos => simpa only [badStateWhen, htree, hstate] using hbad
      | _ => cases hi
    exact ⟨_, [], _, .badState hw hbad', herror _ _, by simp, by simp, errorEntry_responses _ _ _,
      errorEntry_responses _ _ _⟩
  | malformedSymbol ha hch =>
    exact ⟨_, [], _, .malformedSymbol (hstate ▸ ha) hch, habort _ _, by simp, by simp, errorEntry_responses _ _ _,
      errorEntry_responses _ _ _⟩
  | malformedEos ha =>
    exact ⟨_, [], _, .malformedEos (hstate ▸ ha), habort _ _, by simp, by simp, errorEntry_responses _ _ _,
      errorEntry_responses _ _ _⟩
  | decStart hvalid hna =>
    exact ⟨_, [], _, .decStart (htree ▸ hvalid) (hstate ▸ hna), ⟨hnode, htree, rfl, rfl, hroom⟩, by simp, by simp,
      rfl, rfl⟩
  | decStep ha hb hn hk =>
    exact ⟨_, [], _, .decStep (hstate ▸ ha) hb (hn.trans (hchild _)) (hnode ▸ hk), ⟨hnode, htree, hstate, rfl, hroom⟩,
      by simp, by simp, rfl, rfl⟩
  | decSentinel ha hb hn hk hs =>
    exact ⟨_, [], _, .decSentinel (hstate ▸ ha) hb (hn.trans (hchild _)) (hnode ▸ hk) hs,
      ⟨hnode, htree, rfl, rfl, hroom⟩, by simp, by simp, rfl, rfl⟩
  | decLeaf ha hb hn hk hs hfits =>
    exact ⟨_, _, _, .decLeaf (hstate ▸ ha) hb (hn.trans (hchild _)) (hnode ▸ hk) hs (hroom ▸ hfits),
      ⟨hnode, htree, hstate, rfl, by simp [hroom]⟩, rfl, rfl, rfl, rfl⟩
  | decEos hdone =>
    exact ⟨_, [], _, .decEos (hstate ▸ hdone), ⟨hnode, htree, rfl, hcur, hroom⟩, by simp, by simp, rfl, rfl⟩
  | _ => cases hi

end

/-- A state that has kept the encoder's side of `s` shares it with every state that `s` shares it with. -/
theorem sameEncoderSide_of_kept {s t s' : State} (hkept : sameEncoderSide s t) (h : sameEncoderSide s s') :
    sameEncoderSide t s' := by
  obtain ⟨hlen, hcode, htable, hstate, hsent, hroom⟩ := hkept
  simpa only [sameEncoderSide, hlen, hcode, htable, hstate, hsent, hroom] using h

/-- An encoder command leaves the decoder's side and output (R165). -/
theorem Effect.encoder_frame {i : Instr} {s t : State} (he : Effect i s t) (hi : isEncoder i = true) :
    sameDecoderSide s t ∧ t.decOut = s.decOut := by
  cases he with
  | badOperand | badState | encStart | encSym | encEnd => simp [sameDecoderSide]
  | _ => cases hi

/-- A decoder command leaves the encoder's side and output (R165). -/
theorem Effect.decoder_frame {i : Instr} {s t : State} (he : Effect i s t) (hi : isDecoder i = true) :
    sameEncoderSide s t ∧ t.encOut = s.encOut := by
  cases he with
  | badOperand | badState | malformedSymbol | malformedEos => simp [sameEncoderSide]
  | decStart | decStep | decSentinel | decLeaf | decEos => simp [sameEncoderSide]
  | _ => cases hi

/-- With a valid code table only the encoder's own commands and SOFT_RESET touch the encoder's side or output (R163). -/
theorem Effect.keeps_encoder {i : Instr} {s t : State} (he : Effect i s t) (hi : isEncoder i = false)
    (hreset : i ≠ .softReset) (htable : s.tableValid = true) : sameEncoderSide s t ∧ t.encOut = s.encOut := by
  cases he with
  | softReset => exact absurd rfl hreset
  | encStart | encSym | encEnd => cases hi
  | buildTable _ hno => rw [htable] at hno; cases hno
  | _ => simp [sameEncoderSide]

/-- No command makes the host cease to consume (R235). -/
theorem Effect.keeps_drained {i : Instr} {s t : State} (he : Effect i s t) (h : drained s) : drained t := by
  obtain ⟨henc, hdec⟩ := h
  cases he <;> simp [drained, henc, hdec]

/-! ## The encoder's part of a run -/

/-- `s` after encoder commands that left `sent` in SENT_IN_DATA, emitted `cs` and were answered by `rs`. -/
def State.encoded (s : State) (sent : Bool) (cs : List Byte) (rs : List Response) : State :=
  { s with sentInData := sent, encOut := s.encOut ++ cs, responses := s.responses ++ rs }

theorem encoded_encoded (s : State) (sent sent' : Bool) (cs cs' : List Byte) (rs rs' : List Response) :
    (s.encoded sent cs rs).encoded sent' cs' rs' = s.encoded sent' (cs ++ cs') (rs ++ rs') := by
  simp only [State.encoded, List.append_assoc]

/-- Closing the operation keeps the invariant. -/
theorem Invariant.encoded_idle {s : State} (h : Invariant s) (sent : Bool) (cs : List Byte) (rs : List Response) :
    Invariant { s.encoded sent cs rs with encState := .idle } :=
  (h.withEncoder (es := .idle) nofun sent _ s.encRoom).withHostSide _ _ _ _ _

end Sys2Proof.Machine

namespace Sys2Proof.Claims

open Sys2Proof.Machine

/-! ## The encoder's commands on a consumed stream (R160 to R162) -/

theorem exec_encStart_of_idle {s : State} (htable : s.tableValid = true) (hidle : s.encState = .idle) :
    exec .encStart s = .next { afterOk s 0 with encState := .active, sentInData := false } :=
  exec_of_effect (.encStart htable hidle)

theorem exec_encSym_of_consumed {s : State} {sym : Byte} (ha : s.encState = .active) (hroom : s.encRoom = none) :
    exec (.encSym sym) s = .next { afterOk s ((s.readLen sym).setWidth 64) with
      encOut := s.encOut ++ chars s sym
      sentInData := if sym = 4 then true else s.sentInData } := by
  rw [exec_encSym_of_room ha (by rw [hroom, roomFor_none]), hroom, roomAfter_none, ← hroom]
  rfl

theorem exec_encEnd_of_consumed {s : State} (ha : s.encState = .active) (hroom : s.encRoom = none) :
    exec .encEnd s = .next { afterOk s ((s.readLen 4).setWidth 64) with
      encOut := s.encOut ++ chars s 4
      encState := .idle } := by
  rw [exec_encEnd_of_room ha (by rw [hroom, roomFor_none]), hroom, roomAfter_none, ← hroom]
  rfl

/-! ## The run of an encode operation (R163) -/

theorem chars_encoded (s : State) (sent : Bool) (cs : List Byte) (rs : List Response) :
    chars (s.encoded sent cs rs) = chars s := rfl

theorem exec_encSym_encoded {s : State} {sym : Byte} (ha : s.encState = .active) (hroom : s.encRoom = none) :
    ∃ r, exec (.encSym sym) s = .next (s.encoded (if sym = 4 then true else s.sentInData) (chars s sym) [r]) :=
  ⟨_, exec_encSym_of_consumed ha hroom⟩

/-- From an open operation, ENC_SYM for each byte and ENC_END emit the bytes' codes and the sentinel's. -/
theorem runInstrs_encSyms {s : State} (bs : List Byte) (ha : s.encState = .active) (hroom : s.encRoom = none) :
    ∃ rs sent, (sent = true ↔ s.sentInData = true ∨ 4 ∈ bs) ∧
      runInstrs (bs.map .encSym ++ [.encEnd]) s =
        .next { s.encoded sent ((bs ++ [4]).flatMap (chars s)) rs with encState := .idle } := by
  induction bs generalizing s with
  | nil =>
    refine ⟨[{ rc := .ok, data := (s.readLen 4).setWidth 64 }], s.sentInData, by simp, ?_⟩
    rw [List.map_nil, List.nil_append, List.nil_append, runInstrs_cons (exec_encEnd_of_consumed ha hroom),
      List.flatMap_singleton]
    rfl
  | cons b bs ih =>
    obtain ⟨r, hexec⟩ := exec_encSym_encoded (sym := b) ha hroom
    obtain ⟨rs, sent, hsent, hrun⟩ := ih
      (s := s.encoded (if b = 4 then true else s.sentInData) (chars s b) [r]) ha hroom
    refine ⟨r :: rs, sent, hsent.trans ?_, ?_⟩
    · by_cases h4 : b = 4
      · simp [State.encoded, h4]
      · simp only [State.encoded, List.mem_cons, eq_comm (a := (4 : Byte)), h4, false_or, if_false]
    · rw [List.map_cons, List.cons_append, runInstrs_cons hexec, hrun, chars_encoded, encoded_encoded]
      rfl

/-- A whole operation emits the bytes' codes and the sentinel's, and SENT_IN_DATA tells of a 4 among the bytes. -/
theorem runInstrs_encodeAll {s : State} (bs : List Byte) (htable : s.tableValid = true) (hidle : s.encState = .idle)
    (hroom : s.encRoom = none) :
    ∃ rs sent, (sent = true ↔ 4 ∈ bs) ∧
      runInstrs (encodeAll bs) s =
        .next { s.encoded sent ((bs ++ [4]).flatMap (chars s)) rs with encState := .idle } := by
  obtain ⟨rs, sent, hsent, hrun⟩ := runInstrs_encSyms bs
    (s := { afterOk s 0 with encState := .active, sentInData := false }) rfl hroom
  refine ⟨{ rc := .ok, data := 0 } :: rs, sent, hsent.trans (by simp), ?_⟩
  rw [encodeAll, List.cons_append, runInstrs_cons (exec_encStart_of_idle htable hidle), hrun]
  simp only [State.encoded, afterOk, List.append_assoc, List.cons_append]
  rfl

/-- The commands of other sides drop out of a run, as far as the encoder is concerned (R163): the encoder's commands
alone, from a state with the same encoder's side and output, come to the same side and output. -/
theorem runInstrs_filter_isEncoder {s s' : State} (cmds : List Instr) (htable : s.tableValid = true)
    (hdrained : drained s) (hreset : .softReset ∉ cmds) (hside : sameEncoderSide s s') (hout : s.encOut = s'.encOut) :
    ∃ t t', runInstrs cmds s = .next t ∧ runInstrs (cmds.filter isEncoder) s' = .next t' ∧ sameEncoderSide t t' ∧
      t.encOut = t'.encOut := by
  induction cmds generalizing s s' with
  | nil => exact ⟨s, s', rfl, rfl, hside, hout⟩
  | cons i cmds ih =>
    obtain ⟨hi, hcmds⟩ := not_or.1 (mt List.mem_cons.2 hreset)
    obtain ⟨u, hexec, he⟩ := exec_next_of_drained i hdrained.1 hdrained.2
    obtain ⟨hvalid, -⟩ := he.keeps_table (Ne.symm hi) htable
    rw [runInstrs_cons hexec]
    cases henc : isEncoder i with
    | true =>
      obtain ⟨u', out, -, he', hside', hu, hu', -⟩ := he.transport_encoder hside henc
      rw [List.filter_cons_of_pos henc, runInstrs_cons (exec_of_effect he')]
      exact ih hvalid (he.keeps_drained hdrained) hcmds hside' (by rw [hu, hu', hout])
    | false =>
      obtain ⟨hkept, hu⟩ := he.keeps_encoder henc (Ne.symm hi) htable
      rw [List.filter_cons_of_neg (by simp [henc])]
      exact ih hvalid (he.keeps_drained hdrained) hcmds (sameEncoderSide_of_kept hkept hside) (hu.trans hout)

end Sys2Proof.Claims

namespace Sys2Proof.Machine

open Sys2Proof.Claims

/-! ## The characters of DECODE (R79, R181) -/

@[simp] theorem lastFailed_respond (s : State) (d : Word) : (s.respond d).lastFailed = false := by
  simp [State.lastFailed, State.lastResponse?]

@[simp] theorem lastDone_respond (s : State) (d : Word) : (s.respond d).lastDone = d.getLsbD 1 := by
  simp [State.lastDone, State.lastResponse?]

theorem packStep_done (n : NodeIndex) : (packStep n).getLsbD 1 = false := by
  simp [packStep]

theorem packLeaf_done (n : NodeIndex) (done : Bool) : (packLeaf n done).getLsbD 1 = done := by
  cases done <;> simp [packLeaf]

/-- A character answered OK without DONE is followed by the next one. -/
theorem feedChars_cons_of_not_done {c : Byte} {rest : List Byte} {s t : State} {d : Word}
    (h : exec (.decChar c) s = .next (t.respond d)) (hd : d.getLsbD 1 = false) :
    feedChars (c :: rest) s = feedChars rest (t.respond d) := by
  simp only [feedChars, h, lastFailed_respond, lastDone_respond, hd, Bool.false_eq_true, if_false]

/-- A character answered with DONE is followed by DEC_EOS. -/
theorem feedChars_cons_of_done {c : Byte} {rest : List Byte} {s t : State} {d : Word}
    (h : exec (.decChar c) s = .next (t.respond d)) (hd : d.getLsbD 1 = true) :
    feedChars (c :: rest) s = exec .decEos (t.respond d) := by
  simp only [feedChars, h, lastFailed_respond, lastDone_respond, hd, Bool.false_eq_true, if_false, if_true]

/-- The last edge of a path leaves a compound. -/
theorem follow_concat {node : Vector Node 511} {n k : NodeIndex} {q : List Bool} {b : Bool}
    (h : follow node n (q ++ [b]) = some k) :
    ∃ m, follow node n q = some m ∧ node[m].kind = .compound ∧ k = if b then node[m].right else node[m].left := by
  induction q generalizing n with
  | nil =>
    cases hk : node[n].kind with
    | leaf => rw [List.nil_append, follow_cons_leaf hk] at h; cases h
    | compound =>
      rw [List.nil_append, follow_cons_compound hk] at h
      exact ⟨n, rfl, hk, (Option.some.inj h).symm⟩
  | cons c q ih =>
    cases hk : node[n].kind with
    | leaf => rw [List.cons_append, follow_cons_leaf hk] at h; cases h
    | compound =>
      rw [List.cons_append, follow_cons_compound hk] at h
      rw [follow_cons_compound hk]
      exact ih h

/-- `s` after characters that led the walk to node `m`, emitted `bs` and were answered by `rs`. -/
def State.walked (s : State) (m : NodeIndex) (bs : List Byte) (rs : List Response) : State :=
  { s with decCur := m, decOut := s.decOut ++ bs, responses := s.responses ++ rs }

theorem walked_walked (s : State) (m m' : NodeIndex) (bs bs' : List Byte) (rs rs' : List Response) :
    (s.walked m bs rs).walked m' bs' rs' = s.walked m' (bs ++ bs') (rs ++ rs') := by
  simp only [State.walked, List.append_assoc]

theorem walked_nil (s : State) : s.walked s.decCur [] [] = s := by
  simp only [State.walked, List.append_nil]

/-- The edge to a compound makes it the current node. -/
theorem feedChars_compound {s : State} {b : Bool} (rest : List Byte) (ha : s.decState = .active)
    (hk : s.node[s.decChild b].kind = .compound) :
    ∃ r, feedChars (charOfBit b :: rest) s = feedChars rest (s.walked (s.decChild b) [] [r]) := by
  have hexec := exec_of_effect (.decStep ha (bitOfChar?_charOfBit b) rfl hk)
  refine ⟨{ rc := .ok, data := packStep (s.decChild b) }, ?_⟩
  rw [feedChars_cons_of_not_done hexec (packStep_done _), State.walked, List.append_nil]
  rfl

/-- The edge to a leaf other than the sentinel's emits its symbol. -/
theorem feedChars_leaf {s : State} {b : Bool} {sym : Byte} (rest : List Byte) (ha : s.decState = .active)
    (hroom : s.decRoom = none) (hn : s.decChild b = leafIndex sym) (hk : s.node[leafIndex sym].kind = .leaf)
    (h4 : sym ≠ 4) :
    ∃ r, feedChars (charOfBit b :: rest) s = feedChars rest (s.walked Config.root [sym] [r]) := by
  have hne : leafIndex sym ≠ sentinelNode := fun h => h4 (leafIndex_inj.1 h)
  have hbyte : BitVec.ofNat 8 (leafIndex sym).val = sym := (BitVec.ofNat_toNat 8 sym).trans (BitVec.setWidth_eq sym)
  have hexec := exec_of_effect (.decLeaf ha (bitOfChar?_charOfBit b) hn.symm hk hne (by rw [hroom, roomFor_none]))
  refine ⟨{ rc := .ok, data := packLeaf (leafIndex sym) false }, ?_⟩
  rw [feedChars_cons_of_not_done hexec (packLeaf_done _ _), hbyte, hroom, roomAfter_none, ← hroom]
  rfl

/-- The edge to the sentinel's leaf is answered with DONE, and DEC_EOS closes the operation. -/
theorem feedChars_sentinel {s : State} {b : Bool} (rest : List Byte) (ha : s.decState = .active)
    (hn : s.decChild b = leafIndex 4) (hk : s.node[leafIndex 4].kind = .leaf) :
    ∃ r, feedChars (charOfBit b :: rest) s =
      .next ({ s.walked Config.root [] [r] with decState := .idle }.respond 0) := by
  have hexec := exec_of_effect (.decSentinel ha (bitOfChar?_charOfBit b) hn.symm hk rfl)
  refine ⟨{ rc := .ok, data := packLeaf (leafIndex 4) true }, ?_⟩
  rw [feedChars_cons_of_done hexec (packLeaf_done _ _), exec_of_effect (.decEos rfl), State.walked, List.append_nil]
  rfl

/-- The characters of a path to a compound lead there, one response each. -/
theorem feedChars_path {s : State} {m : NodeIndex} {p : List Bool} (rest : List Byte) (ha : s.decState = .active)
    (hfollow : follow s.node s.decCur p = some m) (hm : s.node[m].kind = .compound) :
    ∃ rs, rs.length = p.length ∧ feedChars (p.map charOfBit ++ rest) s = feedChars rest (s.walked m [] rs) := by
  induction p generalizing s with
  | nil =>
    cases hfollow
    exact ⟨[], rfl, by rw [walked_nil]; rfl⟩
  | cons b p ih =>
    cases hk : s.node[s.decCur].kind with
    | leaf => rw [follow_cons_leaf hk] at hfollow; cases hfollow
    | compound =>
      rw [follow_cons_compound hk] at hfollow
      have hchild : s.node[s.decChild b].kind = .compound := by
        cases hc : s.node[s.decChild b].kind with
        | compound => rfl
        | leaf =>
          obtain rfl := follow_leaf hc hfollow
          exact hc.symm.trans hm
      obtain ⟨r, hstep⟩ := feedChars_compound (p.map charOfBit ++ rest) ha hchild
      obtain ⟨rs, hlen, hrun⟩ := ih (s := s.walked (s.decChild b) [] [r]) ha hfollow hm
      refine ⟨r :: rs, by rw [List.length_cons, hlen, List.length_cons], hstep.trans (hrun.trans ?_)⟩
      rw [walked_walked]
      rfl

/-- Along a path that has an edge the walk comes to the path's last edge, one response for each edge before it. -/
theorem feedChars_to_last_edge {s : State} {n : NodeIndex} {p : List Bool} (rest : List Byte)
    (ha : s.decState = .active) (hp : p ≠ []) (hfollow : follow s.node s.decCur p = some n) :
    ∃ m b rs, rs.length + 1 = p.length ∧ (s.walked m [] rs).decChild b = n ∧
      feedChars (p.map charOfBit ++ rest) s = feedChars (charOfBit b :: rest) (s.walked m [] rs) := by
  obtain ⟨q, b, rfl⟩ : ∃ q b, p = q ++ [b] := ⟨_, _, (List.dropLast_append_getLast hp).symm⟩
  obtain ⟨m, hq, hm, hedge⟩ := follow_concat hfollow
  obtain ⟨rs, hlen, hrun⟩ := feedChars_path (charOfBit b :: rest) ha hq hm
  refine ⟨m, b, rs, by rw [hlen, List.length_append, List.length_singleton], hedge.symm, ?_⟩
  rw [List.map_append, List.append_assoc, List.map_singleton, List.singleton_append, hrun]

/-- The characters of a symbol's path emit the symbol and lead back to the root. -/
theorem feedChars_code {s : State} {sym : Byte} {p : List Bool} (rest : List Byte) (ha : s.decState = .active)
    (hroom : s.decRoom = none) (hp : p ≠ []) (hfollow : follow s.node s.decCur p = some (leafIndex sym))
    (hk : s.node[leafIndex sym].kind = .leaf) (h4 : sym ≠ 4) :
    ∃ rs, rs.length = p.length ∧
      feedChars (p.map charOfBit ++ rest) s = feedChars rest (s.walked Config.root [sym] rs) := by
  obtain ⟨m, b, rs, hlen, hn, hrun⟩ := feedChars_to_last_edge rest ha hp hfollow
  obtain ⟨r, hlast⟩ := feedChars_leaf (s := s.walked m [] rs) (b := b) rest ha hroom hn hk h4
  refine ⟨rs ++ [r], by rw [List.length_append, List.length_singleton, hlen], ?_⟩
  rw [hrun, hlast, walked_walked]
  rfl

/-- The characters of the sentinel's path complete the operation, whatever characters are left. -/
theorem feedChars_sentinel_code {s : State} {p : List Bool} (rest : List Byte) (ha : s.decState = .active)
    (hp : p ≠ []) (hfollow : follow s.node s.decCur p = some (leafIndex 4)) (hk : s.node[leafIndex 4].kind = .leaf) :
    ∃ rs, rs.length = p.length ∧ feedChars (p.map charOfBit ++ rest) s =
      .next ({ s.walked Config.root [] rs with decState := .idle }.respond 0) := by
  obtain ⟨m, b, rs, hlen, hn, hrun⟩ := feedChars_to_last_edge rest ha hp hfollow
  obtain ⟨r, hlast⟩ := feedChars_sentinel (s := s.walked m [] rs) (b := b) rest ha hn hk
  refine ⟨rs ++ [r], by rw [List.length_append, List.length_singleton, hlen], ?_⟩
  rw [hrun, hlast, walked_walked]
  rfl

/-! ## Decoding what was encoded (R183) -/

theorem chars_eq_map_charOfBit (s : State) (sym : Byte) : chars s sym = (s.codePath sym).map charOfBit := rfl

theorem chars_length (s : State) (sym : Byte) : (chars s sym).length = (s.codePath sym).length := by
  rw [chars_eq_map_charOfBit, List.length_map]

theorem chars_walked (s : State) (m : NodeIndex) (bs : List Byte) (rs : List Response) :
    chars (s.walked m bs rs) = chars s := rfl

namespace Invariant

variable {s : State} (h : Invariant s) (htable : s.tableValid = true)
include h htable

theorem codePath_ne_nil (sym : Byte) : s.codePath sym ≠ [] := by
  have hpos := h.readLen_pos htable sym
  rw [← codePath_length] at hpos
  exact List.ne_nil_of_length_pos hpos

theorem leaf_kind (sym : Byte) : s.node[leafIndex sym].kind = .leaf := by
  have hread := h.readNode_leafIndex (h.table_needs_tree htable) sym
  exact congrArg Node.kind hread

/-- From the root, the characters of the codes of `bs` and of the sentinel emit the bytes before the first 4 and complete
the operation; where no byte is 4 each of them is consumed. -/
theorem feedChars_codes (bs : List Byte) (ha : s.decState = .active) (hcur : s.decCur = Config.root)
    (hroom : s.decRoom = none) :
    ∃ rs, feedChars ((bs ++ [4]).flatMap (chars s)) s =
        .next ({ s.walked Config.root (bs.takeWhile fun b => b != 4) rs with decState := .idle }.respond 0) ∧
      (4 ∉ bs → rs.length = ((bs ++ [4]).flatMap (chars s)).length) := by
  have hfollow : ∀ sym, follow s.node s.decCur (s.codePath sym) = some (leafIndex sym) := fun sym => by
    rw [hcur, h.follow_codePath htable]
  induction bs generalizing s with
  | nil =>
    obtain ⟨rs, hlen, hrun⟩ :=
      feedChars_sentinel_code [] ha (h.codePath_ne_nil htable 4) (hfollow 4) (h.leaf_kind htable 4)
    rw [List.append_nil, ← chars_eq_map_charOfBit] at hrun
    rw [List.nil_append, List.flatMap_singleton]
    exact ⟨rs, hrun, fun _ => by rw [hlen, chars_length]⟩
  | cons b bs ih =>
    rw [List.cons_append, List.flatMap_cons]
    by_cases h4 : b = 4
    · subst h4
      obtain ⟨rs, hlen, hrun⟩ := feedChars_sentinel_code ((bs ++ [4]).flatMap (chars s)) ha
        (h.codePath_ne_nil htable 4) (hfollow 4) (h.leaf_kind htable 4)
      exact ⟨rs, hrun, fun hno => absurd List.mem_cons_self hno⟩
    · obtain ⟨rs, hlen, hrun⟩ := feedChars_code ((bs ++ [4]).flatMap (chars s)) ha hroom
        (h.codePath_ne_nil htable b) (hfollow b) (h.leaf_kind htable b) h4
      have hroot := h.root_compound (h.table_needs_tree htable)
      have hwalked : Invariant (s.walked Config.root [b] rs) :=
        (h.withDecoder h.dec_needs_tree (absurd ha) (fun _ => hroot) _ s.decRoom).withHostSide _ _ _ _ _
      obtain ⟨rs', hrun', hlen'⟩ := ih hwalked htable ha rfl hroom (hcur ▸ hfollow)
      rw [chars_walked, walked_walked] at hrun'
      refine ⟨rs ++ rs', ?_, fun hno => ?_⟩
      · rw [chars_eq_map_charOfBit s b, hrun, hrun', List.takeWhile_cons_of_pos (by simpa using h4)]
        rfl
      · have hrest := hlen' fun hmem => hno (List.mem_cons_of_mem b hmem)
        rw [chars_walked] at hrest
        rw [List.length_append, List.length_append, chars_length, hlen, hrest]

/-- DECODE of the characters of the codes of `bs` and of the sentinel, where no decode operation is open (R79, R180). -/
theorem decodeAll_codes (bs : List Byte) (hd : s.decState ≠ .active) (hroom : s.decRoom = none) :
    ∃ rs, decodeAll ((bs ++ [4]).flatMap (chars s)) s =
        .next ({ s.walked Config.root (bs.takeWhile fun b => b != 4) rs with decState := .idle }.respond 0) ∧
      (4 ∉ bs → rs.length = ((bs ++ [4]).flatMap (chars s)).length + 1) := by
  have ht := h.table_needs_tree htable
  have hstart := Effect.decStart ht hd
  obtain ⟨rs, hrun, hlen⟩ := (hstart.keeps_invariant h).feedChars_codes htable bs rfl rfl hroom
  refine ⟨{ rc := .ok, data := 0 } :: rs, ?_, fun hno => congrArg (· + 1) (hlen hno)⟩
  simp only [decodeAll, exec_of_effect hstart, lastFailed_respond, Bool.false_eq_true, if_false]
  refine hrun.trans ?_
  simp only [State.walked, respond_eq, List.append_assoc, List.singleton_append]

end Invariant

end Sys2Proof.Machine

namespace Sys2Proof.Claims

open Sys2Proof.Machine

/-! ## The statements -/

/-- Settles O41: ENC_START has one effect, and its guards are the row of R201. -/
theorem encStartOpensAnOperation : Obligations.EncStartOpensAnOperation := by
  refine ⟨fun s hbad => ?refused, fun s htable hidle => ?opened, wordForm_opcode .encStart⟩
  case refused => exact exec_badState_afterError (i := .encStart) hbad rfl
  case opened => exact exec_encStart_of_idle htable hidle

/-- Settles O42: on a consumed stream ENC_SYM's whole emission fits. -/
theorem encSymAppendsTheCode : Obligations.EncSymAppendsTheCode := by
  refine ⟨fun s sym hidle => ?refused, fun s sym ha hroom => ?emitted, wordForm_opcode .encSym⟩
  case refused => exact exec_badState_afterError (i := .encSym sym) (by simp [badStateWhen, hidle]) rfl
  case emitted => exact exec_encSym_of_consumed ha hroom

/-- Settles O43: on a consumed stream ENC_END's whole emission fits. -/
theorem encEndAppendsTheSentinel : Obligations.EncEndAppendsTheSentinel := by
  refine ⟨fun s hidle => ?refused, fun s ha hroom => ?emitted, wordForm_opcode .encEnd⟩
  case refused => exact exec_badState_afterError (i := .encEnd) (by simp [badStateWhen, hidle]) rfl
  case emitted => exact exec_encEnd_of_consumed ha hroom

/-- Settles O44: the commands of other sides drop out, and what is left is the run of ENCODE (R79). -/
theorem encodeOperationOutput : Obligations.EncodeOperationOutput := by
  intro s bs cmds htable hidle hdrained hcmds hreset
  obtain ⟨t, t', hrun, hrun', hside, hout⟩ :=
    runInstrs_filter_isEncoder cmds htable hdrained hreset ⟨rfl, rfl, rfl, rfl, rfl, rfl⟩ rfl
  obtain ⟨rs, sent, hsent, henc⟩ := runInstrs_encodeAll bs htable hidle hdrained.1
  rw [hcmds, henc] at hrun'
  cases hrun'
  obtain ⟨-, -, -, hstate, hflag, -⟩ := hside
  exact ⟨t, hrun, hout, hstate, by rw [hflag]; exact hsent, fun hinv => hinv.follow_codePath htable⟩

/-- Settles O51: an effect's guards, output and response are told by its own side, and it leaves the other side. -/
theorem encoderAndDecoderAreIndependent : Obligations.EncoderAndDecoderAreIndependent := by
  constructor
  · intro i s s' t hi hside hexec
    have he := effect_of_exec hexec
    obtain ⟨t', out, r, he', hside', hout, hout', hr, hr'⟩ := he.transport_encoder hside hi
    exact ⟨t', out, r, exec_of_effect he', hside', hout, hout', hr, hr', he.encoder_frame hi⟩
  · intro i s s' t hi hside hexec
    have he := effect_of_exec hexec
    obtain ⟨t', out, r, he', hside', hout, hout', hr, hr'⟩ := he.transport_decoder hside hi
    exact ⟨t', out, r, exec_of_effect he', hside', hout, hout', hr, hr', he.decoder_frame hi⟩

/-- Settles O49: each code is its symbol's path, so the decoder's walk along it ends at the symbol's leaf. -/
theorem decodeInvertsEncode : Obligations.DecodeInvertsEncode := by
  intro s bs hinv htable hidle hdec hdrained
  obtain ⟨henc, hroom⟩ := hdrained
  obtain ⟨rs, sent, -, hencode⟩ := runInstrs_encodeAll bs htable hidle henc
  obtain ⟨rs', hdecode, hlen⟩ := (hinv.encoded_idle sent ((bs ++ [4]).flatMap (chars s)) rs).decodeAll_codes htable bs
    hdec hroom
  have hdrop := List.drop_left (l₁ := s.encOut) (l₂ := (bs ++ [4]).flatMap (chars s))
  refine ⟨_, _, hencode, (congrArg (decodeAll · _) hdrop).trans hdecode, rfl, rfl, lastFailed_respond _ _,
    fun hno => ⟨?all, ?count⟩⟩
  case all =>
    have hall : bs.takeWhile (fun b => b != 4) = bs :=
      List.takeWhile_eq_self_iff.2 fun b hb => bne_iff_ne.2 fun h4 => hno (h4 ▸ hb)
    exact congrArg (s.decOut ++ ·) hall
  case count =>
    have hcount : rs'.length = ((bs ++ [4]).flatMap (chars s)).length + 1 := hlen hno
    simp only [respond_responses, State.walked, State.encoded, List.length_append, List.length_singleton, hcount,
      Nat.add_sub_cancel_left]
    omega

end Sys2Proof.Claims
end

section
/-! The decoder's commands (R180 to R182): what each edge of DEC_CHAR answers; and the statements of
spec/45_decoder.md. -/

namespace Sys2Proof.Machine

/-! ## The data word of a step to a compound, and of the sentinel's leaf (R181) -/

theorem packStep_eq (n : NodeIndex) : packStep n = BitVec.ofNat 64 n.val <<< 16 := place_nodeBits n 16

theorem eq_sentinelNode {n : NodeIndex} (h : n.val = 4) : n = sentinelNode := Fin.ext h

theorem packLeaf_sentinelNode : packLeaf sentinelNode true = 0x0000000001FE0403 := by decide

end Sys2Proof.Machine

namespace Sys2Proof.Claims

open Sys2Proof.Machine

/-! ## DEC_CHAR, edge by edge (R181) -/

section

variable {s : State} (ha : s.decState = .active)
include ha

/-- A character that is no bit aborts the operation. -/
theorem exec_decChar_of_no_bit {ch : Byte} (h0 : ch ≠ 0x30) (h1 : ch ≠ 0x31) :
    exec (.decChar ch) s = .next (afterError (aborted s) .malformedSymbol 0x51) := by
  rw [exec_of_effect (.malformedSymbol ha (bitOfChar?_eq_none.2 ⟨h0, h1⟩)), errorEntry_eq_afterError]
  rfl

variable {b : Bool} {n : NodeIndex} (hn : n = s.decChild b)
include hn

/-- The edge to a compound makes it the current node. -/
theorem exec_decChar_compound (hk : s.node[n].kind = .compound) :
    exec (.decChar (charOfBit b)) s = .next { afterOk s (BitVec.ofNat 64 n.val <<< 16) with decCur := n } := by
  rw [exec_of_effect (.decStep ha (bitOfChar?_charOfBit b) hn hk), packStep_eq]
  rfl

/-- The edge to the sentinel's leaf ends the operation at the root. -/
theorem exec_decChar_sentinel (hk : s.node[n].kind = .leaf) (h4 : n.val = 4) :
    exec (.decChar (charOfBit b)) s =
      .next { afterOk s 0x0000000001FE0403 with decCur := 510, decState := .done } := by
  have h := eq_sentinelNode h4
  rw [exec_of_effect (.decSentinel ha (bitOfChar?_charOfBit b) hn hk h), h, packLeaf_sentinelNode]
  rfl

/-- The edge to another leaf emits its symbol into a stream that the host consumes. -/
theorem exec_decChar_leaf_of_consumed (hk : s.node[n].kind = .leaf) (h4 : n.val ≠ 4) (hroom : s.decRoom = none) :
    exec (.decChar (charOfBit b)) s =
      .next { afterOk s (BitVec.ofNat 64 510 <<< 16 ||| BitVec.ofNat 64 n.val <<< 8 ||| 1) with
        decCur := 510, decOut := s.decOut ++ [BitVec.ofNat 8 n.val] } := by
  rw [exec_decChar_leaf_of_room ha hn hk h4 (by rw [hroom, roomFor_none]), hroom, roomAfter_none, ← hroom]
  rfl

end

/-! ## The statements -/

/-- Settles O47: with an operation open, a character that is a bit has one effect for each kind of node its edge leads
to; the refusal is the row of R201. -/
theorem decCharTakesOneEdge : Obligations.DecCharTakesOneEdge := by
  refine ⟨fun s ch hidle => ?refused, fun s ch ha h0 h1 => ?malformed,
    fun s b n ha hn => ⟨fun hk => ?compound, fun hk h4 => ?sentinel, fun hk h4 hroom => ?leaf⟩,
    wordForm_opcode .decChar⟩
  case refused => exact exec_badState_afterError (i := .decChar ch) hidle rfl
  case malformed => exact exec_decChar_of_no_bit ha h0 h1
  case compound => exact exec_decChar_compound ha hn hk
  case sentinel => exact exec_decChar_sentinel ha hn hk h4
  case leaf => exact exec_decChar_leaf_of_consumed ha hn hk h4 hroom

/-- Settles O46: DEC_START has one effect, and its guards are the row of R201. -/
theorem decStartOpensAnOperation : Obligations.DecStartOpensAnOperation := by
  refine ⟨fun s hbad => ?refused, fun s htree hclosed => ?opened, wordForm_opcode .decStart⟩
  case refused => exact exec_badState_afterError (i := .decStart) hbad rfl
  case opened => exact exec_of_effect (.decStart htree hclosed)

/-- Settles O48: DEC_EOS has one effect in each state of the decoder. -/
theorem decEosEndsTheOperation : Obligations.DecEosEndsTheOperation := by
  refine ⟨fun s hidle => ?refused, fun s ha => ?aborted, fun s hdone => ?completed, wordForm_opcode .decEos⟩
  case refused => exact exec_badState_afterError (i := .decEos) hidle rfl
  case aborted =>
    rw [exec_of_effect (.malformedEos ha), errorEntry_eq_afterError]
    rfl
  case completed => exact exec_of_effect (.decEos hdone)

end Sys2Proof.Claims
end

section
/-! What a command answers, and what it does to the error capture (R201 to R207); and the statements of
spec/60_exceptions.md. -/

namespace Sys2Proof.Machine

/-! ## The result code of a command (R203) -/

/-- The result codes a command can answer, in the order of R203: each check is reached once those before it passed. -/
inductive Verdict (s : State) (i : Instr) : ResultCode → Prop where
  | badOperand : i.wellFormed = false → Verdict s i .badOperand
  | badState : i.wellFormed = true → badStateWhen s i → Verdict s i .badState
  | operationError {e} : i.wellFormed = true → ¬ badStateWhen s i → operationError? s i = some e → Verdict s i e
  | ok : i.wellFormed = true → ¬ badStateWhen s i → operationError? s i = none → Verdict s i .ok

/-- The clauses of R203, each for the commands that passed the checks before it. -/
theorem Verdict.follows_priority {s : State} {i : Instr} {rc : ResultCode} (h : Verdict s i rc) :
    (i.wellFormed = false → rc = .badOperand) ∧
      (i.wellFormed = true → badStateWhen s i → rc = .badState) ∧
      (i.wellFormed = true → ¬ badStateWhen s i → ∀ e, operationError? s i = some e → rc = e) ∧
      (i.wellFormed = true → ¬ badStateWhen s i → operationError? s i = none → rc = .ok) := by
  cases h with
  | badOperand hw => simp [hw]
  | badState hw hbad => simp [hw, hbad]
  | operationError hw hbad hop => simp [hw, hbad, hop]
  | ok hw hbad hop => simp [hw, hbad, hop]

/-- `s` after the abort that the pseudocode performs before it raises this code: the malformed streams abort the
decoder, no other error aborts anything (R205). -/
def State.abortedBy (s : State) (rc : ResultCode) : State :=
  if rc = .malformedSymbol ∨ rc = .malformedEos then s.abortDecode else s

@[simp] theorem abortedBy_responses (s : State) (rc : ResultCode) : (s.abortedBy rc).responses = s.responses := by
  unfold State.abortedBy
  split <;> rfl

theorem operationError?_buildTree {s : State} (h : hasZeroFreq s.freq = true) :
    operationError? s .buildTree = some .zeroFreq := by
  refine if_pos ?_
  by_contra hno
  have hnone := Claims.hasZeroFreq_eq_false_iff_smoothed.2 fun sym hz => hno ⟨sym, hz⟩
  rw [h] at hnone
  cases hnone

theorem operationError?_buildTree_eq_none {s : State} (h : hasZeroFreq s.freq = false) :
    operationError? s .buildTree = none :=
  if_neg fun ⟨sym, hz⟩ => Claims.hasZeroFreq_eq_false_iff_smoothed.1 h sym hz

theorem operationError?_decChar {s : State} {ch : Byte} (h : bitOfChar? ch = none) :
    operationError? s (.decChar ch) = some .malformedSymbol :=
  if_pos (bitOfChar?_eq_none.1 h)

theorem operationError?_decChar_eq_none {s : State} {ch : Byte} {b : Bool} (h : bitOfChar? ch = some b) :
    operationError? s (.decChar ch) = none :=
  if_neg fun hno => by
    rw [bitOfChar?_eq_none.2 hno] at h
    cases h

theorem wellFormed_nodeRead {idx : BitVec 16} {n : NodeIndex} (h : nodeIndex? idx = some n) :
    (Instr.nodeRead idx).wellFormed = true := by
  rw [nodeIndex?_eq_some] at h
  have hn := n.isLt
  simp only [Instr.wellFormed, decide_eq_true_eq]
  omega

theorem wellFormed_codeBitsRead {sym : Byte} {idx : BitVec 16} {w : Fin 8} (h : window? idx = some w) :
    (Instr.codeBitsRead sym idx).wellFormed = true := by
  rw [window?_eq_some] at h
  have hw := w.isLt
  simp only [Instr.wellFormed, decide_eq_true_eq]
  omega

/-- What an effect has answered: OK, every check passed; or the code of the first check that failed, and then it has
done nothing but the abort and the error entry of R205. -/
theorem Effect.verdict {i : Instr} {s t : State} (he : Effect i s t) :
    (Verdict s i .ok ∧ ∃ d, t.responses = s.responses ++ [{ rc := .ok, data := d }]) ∨
      ∃ rc, Verdict s i rc ∧ rc ≠ .ok ∧ t = (s.abortedBy rc).errorEntry rc i.opcode.toByte := by
  cases he with
  | badOperand hw => exact .inr ⟨_, .badOperand hw, by decide, rfl⟩
  | badState hw hbad => exact .inr ⟨_, .badState hw hbad, by decide, rfl⟩
  | zeroFreq ht hz =>
    exact .inr ⟨_, .operationError rfl (by simp [badStateWhen, ht]) (operationError?_buildTree hz), by decide, rfl⟩
  | malformedSymbol ha hch =>
    exact .inr ⟨_, .operationError rfl (by simp [badStateWhen, ha]) (operationError?_decChar hch), by decide, rfl⟩
  | malformedEos ha =>
    exact .inr ⟨_, .operationError rfl (by simp [badStateWhen, ha]) (if_pos ha), by decide, rfl⟩
  | nop | softReset | getStatus | clearErr | freqRead => exact .inl ⟨.ok rfl id rfl, _, respond_responses _ _⟩
  | freqWrite h | codeLenRead h | encSym h | encEnd h =>
    exact .inl ⟨.ok rfl (by simp [badStateWhen, h]) rfl, _, respond_responses _ _⟩
  | buildTable h h' | encStart h h' | decStart h h' =>
    exact .inl ⟨.ok rfl (by simp [badStateWhen, h, h']) rfl, _, respond_responses _ _⟩
  | buildTree ht hz =>
    exact .inl ⟨.ok rfl (by simp [badStateWhen, ht]) (operationError?_buildTree_eq_none hz), _, respond_responses _ _⟩
  | nodeRead hidx ht =>
    exact .inl ⟨.ok (wellFormed_nodeRead hidx) (by simp [badStateWhen, ht]) rfl, _, respond_responses _ _⟩
  | codeBitsRead hidx ht =>
    exact .inl ⟨.ok (wellFormed_codeBitsRead hidx) (by simp [badStateWhen, ht]) rfl, _, respond_responses _ _⟩
  | decStep ha hb | decSentinel ha hb | decLeaf ha hb =>
    exact .inl ⟨.ok rfl (by simp [badStateWhen, ha]) (operationError?_decChar_eq_none hb), _, respond_responses _ _⟩
  | decEos hd => exact .inl ⟨.ok rfl (by simp [badStateWhen, hd]) (if_neg (by simp [hd])), _, respond_responses _ _⟩

/-- The one response of an effect carries its verdict. -/
theorem Effect.responds_verdict {i : Instr} {s t : State} (he : Effect i s t) :
    ∃ r, t.responses = s.responses ++ [r] ∧ Verdict s i r.rc := by
  rcases he.verdict with ⟨hv, d, hr⟩ | ⟨rc, hv, -, rfl⟩
  · exact ⟨_, hr, hv⟩
  · exact ⟨⟨rc, 0⟩, by rw [errorEntry_responses, abortedBy_responses], hv⟩

/-! ## A performed word, legal or not (R75) -/

/-- Everything a performed word can do, with what the decoder made of it. -/
theorem perform_decoded_cases {w : Word} {s t : State} (h : perform w s = .next t) :
    ((∃ e, decode w = .reject e) ∧ t = s.errorEntry .illegalCmd (opcField w)) ∨
      ∃ i, decode w = .accept i ∧ Effect i s t := by
  cases hd : decode w with
  | accept i =>
    rw [perform_accept hd] at h
    exact .inr ⟨i, rfl, effect_of_exec h⟩
  | reject e =>
    rw [perform_reject hd] at h
    cases h
    exact .inl ⟨⟨e, rfl⟩, rfl⟩

/-- A performed word answers OK, or it has done nothing but an abort and the error entry with its own opcode byte. -/
theorem perform_answers {w : Word} {s t : State} (h : perform w s = .next t) :
    (∃ d, t.responses = s.responses ++ [{ rc := .ok, data := d }]) ∨
      ∃ rc, rc ≠ .ok ∧ t = (s.abortedBy rc).errorEntry rc (opcField w) := by
  rcases perform_decoded_cases h with ⟨-, rfl⟩ | ⟨i, hdecode, he⟩
  · exact .inr ⟨.illegalCmd, by decide, rfl⟩
  · obtain ⟨⟨hopc, -⟩, -⟩ := decode_eq_accept_iff.1 hdecode
    rcases he.verdict with ⟨-, hok⟩ | ⟨rc, -, hne, ht⟩
    · exact .inl hok
    · exact .inr ⟨rc, hne, by rw [hopc, ht]⟩

/-- A performed word whose one response reports a failure has left the error entry of that code. -/
theorem perform_failed {w : Word} {s t : State} {r : Response} (h : perform w s = .next t)
    (hr : t.responses = s.responses ++ [r]) (hne : r.rc ≠ .ok) :
    t = (s.abortedBy r.rc).errorEntry r.rc (opcField w) := by
  rcases perform_answers h with ⟨d, hok⟩ | ⟨rc, -, rfl⟩
  · rw [hr, List.append_right_inj, List.singleton_inj] at hok
    exact absurd (congrArg Response.rc hok) hne
  · rw [errorEntry_responses, abortedBy_responses, List.append_right_inj, List.singleton_inj] at hr
    rw [← hr]

/-! ## The error capture (R205 to R207) -/

/-- `s` with another error capture. -/
def State.withCapture (s : State) (e : Bool) (c o : Byte) : State := { s with err := e, errCode := c, errOpc := o }

/-- Up to the capture, the error entry is the response alone. -/
theorem clearCapture_errorEntry (s : State) (rc : ResultCode) (opc : Byte) :
    (s.errorEntry rc opc).clearCapture = s.clearCapture.reply rc 0 := by
  rw [errorEntry_eq]
  rfl

theorem errorEntry_withCapture (s : State) (e : Bool) (c o : Byte) (rc : ResultCode) (opc : Byte) :
    ((s.withCapture e c o).errorEntry rc opc).clearCapture = (s.errorEntry rc opc).clearCapture := by
  rw [clearCapture_errorEntry, clearCapture_errorEntry]
  rfl

/-- But for GET_STATUS, an effect is the same whatever the capture holds, up to the capture itself (R206). -/
theorem Effect.withCapture {i : Instr} {s t : State} (he : Effect i s t) (hi : i ≠ .getStatus) (e : Bool) (c o : Byte) :
    ∃ t', Effect i (s.withCapture e c o) t' ∧ t'.clearCapture = t.clearCapture := by
  cases he with
  | getStatus => exact absurd rfl hi
  | badOperand hw => exact ⟨_, .badOperand hw, errorEntry_withCapture s e c o _ _⟩
  | badState hw hbad =>
    have hbad' : badStateWhen (s.withCapture e c o) i := by cases i <;> exact hbad
    exact ⟨_, .badState hw hbad', errorEntry_withCapture s e c o _ _⟩
  | zeroFreq ht hz => exact ⟨_, .zeroFreq ht hz, errorEntry_withCapture s e c o _ _⟩
  | malformedSymbol ha hch => exact ⟨_, .malformedSymbol ha hch, errorEntry_withCapture s.abortDecode e c o _ _⟩
  | malformedEos ha => exact ⟨_, .malformedEos ha, errorEntry_withCapture s.abortDecode e c o _ _⟩
  | nop => exact ⟨_, .nop, rfl⟩
  | softReset => exact ⟨_, .softReset, rfl⟩
  | clearErr => exact ⟨_, .clearErr, rfl⟩
  | freqWrite ht => exact ⟨_, .freqWrite ht, rfl⟩
  | freqRead => exact ⟨_, .freqRead, rfl⟩
  | buildTree ht hz ha => exact ⟨_, .buildTree ht hz ha, rfl⟩
  | nodeRead hidx ht => exact ⟨_, .nodeRead hidx ht, rfl⟩
  | buildTable ht htable hst => exact ⟨_, .buildTable ht htable hst, rfl⟩
  | codeLenRead htable => exact ⟨_, .codeLenRead htable, rfl⟩
  | codeBitsRead hidx htable => exact ⟨_, .codeBitsRead hidx htable, rfl⟩
  | encStart htable hidle => exact ⟨_, .encStart htable hidle, rfl⟩
  | encSym ha hroom => exact ⟨_, .encSym ha hroom, rfl⟩
  | encEnd ha hroom => exact ⟨_, .encEnd ha hroom, rfl⟩
  | decStart ht hna => exact ⟨_, .decStart ht hna, rfl⟩
  | decStep ha hb hn hk => exact ⟨_, .decStep ha hb hn hk, rfl⟩
  | decSentinel ha hb hn hk hs => exact ⟨_, .decSentinel ha hb hn hk hs, rfl⟩
  | decLeaf ha hb hn hk hs hroom => exact ⟨_, .decLeaf ha hb hn hk hs hroom, rfl⟩
  | decEos hd => exact ⟨_, .decEos hd, rfl⟩

/-- A command hangs whatever the capture holds (R206, R235). -/
theorem Hangs.withCapture {i : Instr} {s : State} (hh : Hangs i s) (e : Bool) (c o : Byte) :
    Hangs i (s.withCapture e c o) := by
  cases hh with
  | encSym ha hroom => exact .encSym ha hroom
  | encEnd ha hroom => exact .encEnd ha hroom
  | decChar ha hb hn hk hs hroom => exact .decChar ha hb hn hk hs hroom

/-- The three fields of the capture are the same in both states. -/
def sameCapture (s t : State) : Prop := t.err = s.err ∧ t.errCode = s.errCode ∧ t.errOpc = s.errOpc

/-- The capture is clear. -/
def captureClear (t : State) : Prop := t.err = false ∧ t.errCode = 0 ∧ t.errOpc = 0

/-- An effect clears the capture, and then its command is CLEAR_ERR or SOFT_RESET, or it keeps a captured error
(R205, R207). -/
theorem Effect.capture_cases {i : Instr} {s t : State} (he : Effect i s t) (herr : s.err = true) :
    sameCapture s t ∨ captureClear t ∧ (i = .clearErr ∨ i = .softReset) := by
  cases he with
  | clearErr => exact .inr ⟨⟨rfl, rfl, rfl⟩, .inl rfl⟩
  | softReset => exact .inr ⟨⟨rfl, rfl, rfl⟩, .inr rfl⟩
  | badOperand | badState | zeroFreq => exact .inl (by simp [sameCapture, herr])
  | malformedSymbol | malformedEos => exact .inl (by simp [sameCapture, herr])
  | _ => exact .inl ⟨rfl, rfl, rfl⟩

/-- The events that may clear the capture (R207). -/
def clearsCapture (e : HostEvent) : Prop :=
  e = .command 0x0000000000000003 ∨ e = .command 0x0000000000000001 ∨ e = .hardReset ∨ ∃ w, e = .cutCommand w

theorem handle_capture_cases {e : HostEvent} {s t : State} (h : handle e s = .next t) (herr : s.err = true) :
    sameCapture s t ∨ captureClear t ∧ clearsCapture e := by
  cases e with
  | command w =>
    rcases perform_decoded_cases h with ⟨-, rfl⟩ | ⟨i, hdecode, he⟩
    · exact .inl (by simp [sameCapture, herr])
    · have hword : encode i = w := Claims.encodeAfterDecode w i hdecode
      rcases he.capture_cases herr with hsame | ⟨hclear, rfl | rfl⟩
      · exact .inl hsame
      · exact .inr ⟨hclear, .inl (hword ▸ rfl)⟩
      · exact .inr ⟨hclear, .inr (.inl (hword ▸ rfl))⟩
  | hardReset =>
    cases h
    exact .inr ⟨⟨rfl, rfl, rfl⟩, .inr (.inr (.inl rfl))⟩
  | cutCommand w =>
    cases h
    exact .inr ⟨⟨rfl, rfl, rfl⟩, .inr (.inr (.inr ⟨w, rfl⟩))⟩
  | stopConsuming st =>
    cases h
    cases st <;> exact .inl ⟨rfl, rfl, rfl⟩

end Sys2Proof.Machine

namespace Sys2Proof.Claims

open Sys2Proof.Machine

theorem abortedBy_eq (s : State) (rc : ResultCode) :
    s.abortedBy rc = if rc = .malformedSymbol ∨ rc = .malformedEos then aborted s else s := rfl

theorem blankCapture_next (t : State) : blankCapture (.next t) = .next t.clearCapture := rfl

/-- An encoder command has no operand that could be out of range, and no error of its own (R74, R200). -/
theorem checks_of_encoder {i : Instr} (hi : isEncoder i = true) (s : State) :
    i.wellFormed = true ∧ operationError? s i = none := by
  cases i with
  | encStart | encSym | encEnd => exact ⟨rfl, rfl⟩
  | _ => cases hi

theorem verdict_of_encoder {s : State} {i : Instr} {rc : ResultCode} (h : Verdict s i rc) (hi : isEncoder i = true) :
    rc = .ok ∨ rc = .badState := by
  obtain ⟨hform, hnone⟩ := checks_of_encoder hi s
  cases h with
  | ok => exact .inl rfl
  | badState => exact .inr rfl
  | badOperand hw => rw [hform] at hw; cases hw
  | operationError _ _ hop => rw [hnone] at hop; cases hop

/-! ## The statements -/

/-- Settles O11: a word whose response is a failure has left the abort of its code and the error entry. -/
theorem failureLeavesOnlyTheErrorEntry : Obligations.FailureLeavesOnlyTheErrorEntry := by
  intro s t w r hperform hr hne
  rw [perform_failed hperform hr hne, errorEntry_eq_afterError, abortedBy_eq]
  rfl

/-- Settles O12: an illegal word is one the decoder rejects, and a command's response carries its verdict, whose checks
are the clauses. -/
theorem resultCodeFollowsThePriority : Obligations.ResultCodeFollowsThePriority := by
  intro s t w hperform
  rcases perform_decoded_cases hperform with ⟨⟨e, hreject⟩, rfl⟩ | ⟨i, hdecode, he⟩
  · refine ⟨_, errorEntry_responses _ _ _, fun _ => rfl, fun i haccept => ?_⟩
    rw [hreject] at haccept
    cases haccept
  · obtain ⟨r, hr, hv⟩ := he.responds_verdict
    refine ⟨r, hr, fun hillegal => absurd hillegal (not_illegalWord_iff.2 ⟨i, hdecode⟩), fun j hj => ?_⟩
    rw [hdecode] at hj
    cases hj
    exact hv.follows_priority

/-- Settles O13: guards and effects do not read the capture; a failure's error entry and abort leave the encoder; an
encoder command's verdict is OK or BAD_STATE. -/
theorem errorCaptureNeverBlocks : Obligations.ErrorCaptureNeverBlocks := by
  refine ⟨fun s i e c o hi => ?unread, fun s t w r hperform hr hne => ?encoderKept,
    fun s t i r hi hexec hr => ?encoderCodes⟩
  case unread =>
    change blankCapture (exec i (s.withCapture e c o)) = _
    rcases exec_cases i s with ⟨t, hexec, he⟩ | ⟨hexec, hh⟩
    · obtain ⟨t', he', hclear⟩ := he.withCapture hi e c o
      rw [hexec, exec_of_effect he', blankCapture_next, blankCapture_next, hclear]
    · rw [hexec, exec_of_hangs (hh.withCapture e c o)]
  case encoderKept =>
    rw [perform_failed hperform hr hne, State.abortedBy]
    split <;> simp [sameEncoderSide]
  case encoderCodes =>
    obtain ⟨r', hr', hv⟩ := (effect_of_exec hexec).responds_verdict
    rw [hr, List.append_right_inj, List.singleton_inj] at hr'
    rw [hr']
    exact verdict_of_encoder hv hi

/-- Settles O14: a step waits, or handles an event, which keeps a captured error or is one that clears it. -/
theorem captureClearedOnlyByClearOrReset : Obligations.CaptureClearedOnlyByClearOrReset := by
  intro s t hstep herr
  rcases step_cases hstep with ⟨-, rfl⟩ | ⟨e, rest, hport, he⟩
  · exact .inl ⟨herr, rfl, rfl⟩
  · rcases handle_capture_cases he herr with ⟨hkept, hcode, hopc⟩ | ⟨⟨hclear, hcode, hopc⟩, hevent⟩
    · exact .inl ⟨hkept.trans herr, hcode, hopc⟩
    · refine .inr ⟨hclear, hcode, hopc, rest, ?_⟩
      rw [hport]
      simpa [clearsCapture] using hevent

/-- Settles O9: with an empty port the step takes no event. -/
theorem idleStepKeepsAllState : Obligations.IdleStepKeepsAllState := fun _ hport => takeEvent_idle hport

end Sys2Proof.Claims
end

section
/-! The reset state (R230) and what is refused in it, a command cut by hardware reset (R231), and the boot sequence (R232,
R233); and the statements of spec/70_reset_and_hazards.md. -/

namespace Sys2Proof.Machine

/-! ## A command with both streams consumed (R231, R235) -/

/-- `s` with a host that consumes both output streams. -/
def State.consumed (s : State) : State := { s with encRoom := none, decRoom := none }

theorem consumed_errorEntry (s : State) (rc : ResultCode) (opc : Byte) :
    (s.errorEntry rc opc).consumed = s.consumed.errorEntry rc opc := by
  rw [errorEntry_eq, errorEntry_eq]
  rfl

/-- A command that completes into a limited room has the same effect, but for the room, where the streams are consumed. -/
theorem Effect.consumed {i : Instr} {s t : State} (he : Effect i s t) : Effect i s.consumed t.consumed := by
  cases he with
  | badOperand hw => exact consumed_errorEntry s _ _ ▸ .badOperand hw
  | badState hw hbad =>
    have hbad' : badStateWhen s.consumed i := by cases i <;> exact hbad
    exact consumed_errorEntry s _ _ ▸ .badState hw hbad'
  | zeroFreq ht hz => exact consumed_errorEntry s _ _ ▸ .zeroFreq ht hz
  | malformedSymbol ha hch => exact consumed_errorEntry s.abortDecode _ _ ▸ .malformedSymbol (s := s.consumed) ha hch
  | malformedEos ha => exact consumed_errorEntry s.abortDecode _ _ ▸ .malformedEos (s := s.consumed) ha
  | nop => exact .nop
  | softReset => exact .softReset
  | getStatus => exact .getStatus
  | clearErr => exact .clearErr
  | freqWrite ht => exact .freqWrite ht
  | freqRead => exact .freqRead
  | buildTree ht hz ha => exact .buildTree ht hz ha
  | nodeRead hidx ht => exact .nodeRead hidx ht
  | buildTable ht htable hst => exact .buildTable ht htable hst
  | codeLenRead htable => exact .codeLenRead htable
  | codeBitsRead hidx htable => exact .codeBitsRead hidx htable
  | encStart htable hidle => exact .encStart htable hidle
  | encSym ha => exact .encSym (s := s.consumed) ha rfl
  | encEnd ha => exact .encEnd (s := s.consumed) ha rfl
  | decStart ht hna => exact .decStart ht hna
  | decStep ha hb hn hk => exact .decStep ha hb hn hk
  | decSentinel ha hb hn hk hs => exact .decSentinel ha hb hn hk hs
  | decLeaf ha hb hn hk hs => exact .decLeaf (s := s.consumed) ha hb hn hk hs rfl
  | decEos hdone => exact .decEos hdone

theorem perform_consumed {w : Word} {s t : State} (h : perform w s = .next t) :
    perform w s.consumed = .next t.consumed := by
  rcases perform_decoded_cases h with ⟨⟨e, hreject⟩, rfl⟩ | ⟨i, haccept, he⟩
  · rw [perform_reject hreject, consumed_errorEntry]
  · rw [perform_accept haccept, exec_of_effect he.consumed]

/-! ## The steps that reset (R231) -/

theorem step_hardReset {s : State} {rest : List HostEvent} (h : s.port = .hardReset :: rest) :
    step s = .next (State.applyReset { s with port := rest }) := step_event h

theorem step_cutCommand {s : State} {w : Word} {rest : List HostEvent} (h : s.port = .cutCommand w :: rest) :
    step s = .next (State.cutByReset { s with port := rest } w) := step_event h

/-! ## What a cut command delivers (R231) -/

/-- Both streams of `t` begin with those of `s`. -/
def outputsExtend (s t : State) : Prop := s.encOut <+: t.encOut ∧ s.decOut <+: t.decOut

theorem outputsExtend_of_eq {s t : State} (he : t.encOut = s.encOut) (hd : t.decOut = s.decOut) : outputsExtend s t :=
  ⟨he ▸ List.prefix_refl _, hd ▸ List.prefix_refl _⟩

theorem Effect.outputsExtend {i : Instr} {s t : State} (he : Effect i s t) : outputsExtend s t := by
  cases he with
  | encSym | encEnd => exact ⟨List.prefix_append _ _, List.prefix_refl _⟩
  | decLeaf => exact ⟨List.prefix_refl _, List.prefix_append _ _⟩
  | _ => exact outputsExtend_of_eq (by simp) (by simp)

theorem perform_outputsExtend {w : Word} {s t : State} (h : perform w s = .next t) : outputsExtend s t := by
  rcases perform_cases h with rfl | ⟨i, he⟩
  · exact outputsExtend_of_eq (by simp) (by simp)
  · exact he.outputsExtend

/-- Of what follows `xs` in `ys`, as many bytes as are drawn and as the port accepts are again a first part. -/
theorem append_delivered_prefix {xs ys : List Byte} (h : xs <+: ys) (room : Option Nat) (k : Nat) :
    xs ++ withinRoom room ((ys.drop xs.length).take k) <+: ys := by
  obtain ⟨zs, rfl⟩ := h
  rw [List.drop_left, List.prefix_append_right_inj]
  exact (withinRoom_prefix room _).trans (List.take_prefix k zs)

theorem outputsExtend_cutByReset (s : State) (w : Word) : outputsExtend s (s.cutByReset w) :=
  ⟨List.prefix_append _ _, List.prefix_append _ _⟩

/-- Where the cut command would have completed, what it has delivered is a first part of what it would have emitted. -/
theorem cutByReset_outputsExtend {w : Word} {s t : State} (h : perform w s = .next t) :
    outputsExtend (s.cutByReset w) t := by
  obtain ⟨henc, hdec⟩ := perform_outputsExtend h
  have hcut : stateOr s (perform w { s with encRoom := none, decRoom := none }) = t.consumed :=
    congrArg (stateOr s) (perform_consumed h)
  simp only [outputsExtend, State.cutByReset, hcut]
  exact ⟨append_delivered_prefix henc s.encRoom _, append_delivered_prefix hdec s.decRoom _⟩

/-! ## The symbols of LOAD_FREQS (R79) -/

theorem mem_allSymbols (sym : Byte) : sym ∈ allSymbols :=
  List.mem_map.2 ⟨sym.toNat, List.mem_range.2 sym.isLt, (BitVec.ofNat_toNat 8 sym).trans (BitVec.setWidth_eq sym)⟩

theorem allSymbols_length : allSymbols.length = 256 := by
  rw [allSymbols, List.length_map, List.length_range]

end Sys2Proof.Machine

namespace Sys2Proof.Claims

open Sys2Proof.Machine

/-! ## The reset state (R230) -/

theorem isReset_reset : isReset State.reset :=
  ⟨fun sym => by simp [State.readFreq, State.reset], rfl, rfl, rfl, rfl, rfl, rfl, rfl, rfl, rfl, statusWord_reset⟩

theorem isReset_cutByReset (s : State) (w : Word) : isReset (s.cutByReset w) := isReset_applyReset _

/-- In the reset state every command that reads NODE, LEN or CODE is one that R201 does not allow there. -/
theorem badStateWhen_of_isReset {t : State} {i : Instr} (h : isReset t) (hi : readsTables i = true) :
    badStateWhen t i := by
  obtain ⟨-, htree, htable, henc, -, hdec, -⟩ := h
  cases i with
  | nodeRead => exact htree
  | codeLenRead | codeBitsRead => exact htable
  | buildTable | decStart => exact .inl htree
  | encStart => exact .inl htable
  | encSym | encEnd => simp [badStateWhen, henc]
  | decChar => simp [badStateWhen, hdec]
  | _ => cases hi

/-! ## The boot sequence (R232, R233) -/

/-- FREQ_WRITE of `f` for each of `syms`, where no tree exists: each is answered OK, and the rest of the run starts with
the written entries holding `f`. -/
theorem runInstrs_freqWrites (f : Byte → Freq) (syms : List Byte) (rest : List Instr) {s : State}
    (ht : s.treeValid = false) :
    ∃ t rs, runInstrs (syms.map (fun sym => .freqWrite sym (f sym)) ++ rest) s = runInstrs rest t ∧
      t.responses = s.responses ++ rs ∧ rs.length = syms.length ∧ (∀ r ∈ rs, r.rc = .ok) ∧
      (∀ sym, t.readFreq sym = if sym ∈ syms then f sym else s.readFreq sym) ∧ t.treeValid = false ∧
      t.tableValid = s.tableValid := by
  induction syms generalizing s with
  | nil => exact ⟨s, [], rfl, by simp, rfl, by simp, by simp, ht, rfl⟩
  | cons a syms ih =>
    obtain ⟨t, rs, hrun, hresp, hlen, hok, hfreq, htree, htable⟩ := ih (s := (s.writeFreq a (f a)).respond 0) ht
    refine ⟨t, { rc := .ok, data := 0 } :: rs, ?_, by simp [hresp], by simp [hlen], by simpa using hok, fun sym => ?_,
      htree, htable⟩
    · rw [List.map_cons, List.cons_append, runInstrs_cons (exec_of_effect (.freqWrite ht)), hrun]
    · have hwritten : ((s.writeFreq a (f a)).respond 0).readFreq sym = if sym = a then f a else s.readFreq sym :=
        readFreq_writeFreq s a sym (f a)
      rw [hfreq, hwritten]
      by_cases ha : sym = a <;> simp [ha]

/-- BUILD on a smoothed table, where neither a tree nor a code table exists (R120, R140). -/
theorem runInstrs_build {s : State} (ht : s.treeValid = false) (htable : s.tableValid = false) (h : smoothed s) :
    ∃ t rs, runInstrs build s = .next t ∧ t.responses = s.responses ++ rs ∧ rs.length = 2 ∧ (∀ r ∈ rs, r.rc = .ok) ∧
      t.freq = s.freq ∧ t.treeValid = true ∧ t.tableValid = true := by
  obtain ⟨arena, harena⟩ : ∃ arena, arena = buildArena s.freq s.node := ⟨_, rfl⟩
  obtain ⟨st, hst⟩ : ∃ st, st = buildStore arena { len := s.len, code := s.code } := ⟨_, rfl⟩
  have htree := exec_buildTree_afterOk ht h harena
  have hbuilt := exec_buildTable_afterOk
    (s := { afterOk s (arena[510].freq.setWidth 64) with node := arena, treeValid := true }) rfl htable hst
  exact ⟨_, [⟨.ok, arena[510].freq.setWidth 64⟩, ⟨.ok, packMinMax st.len⟩],
    (runInstrs_cons htree).trans (runInstrs_cons hbuilt), by simp [afterOk], rfl, by simp, rfl, rfl, rfl⟩

/-! ## The statements -/

/-- Settles O20: the cut state is an `applyReset`, and it delivers a first part of what the same command emits. -/
theorem hardwareResetCutsTheCommand : Obligations.HardwareResetCutsTheCommand := by
  intro s w rest hport
  obtain ⟨henc, hdec⟩ := outputsExtend_cutByReset { s with port := rest } w
  exact ⟨_, step_cutCommand hport, isReset_cutByReset _ w, rfl, rfl, henc, hdec, fun u => cutByReset_outputsExtend⟩

/-- Settles O54: LOAD_FREQS writes every entry, so the table is `f`, which is smoothed, and BUILD then succeeds. -/
theorem bootSequenceSucceeds : Obligations.BootSequenceSucceeds := by
  intro s f ht htable hf
  obtain ⟨t, rs, hrun, hresp, hlen, hok, hfreq, ht', htable'⟩ := runInstrs_freqWrites f allSymbols build ht
  have hloaded : ∀ sym, t.readFreq sym = f sym := fun sym => by rw [hfreq, if_pos (mem_allSymbols sym)]
  have hsmooth : smoothed t := fun sym => hloaded sym ▸ hf sym
  obtain ⟨u, rs', hbuild, hresp', hlen', hok', hkept, htree, htab⟩ :=
    runInstrs_build ht' (htable'.trans htable) hsmooth
  refine ⟨u, rs ++ rs', hrun.trans hbuild, ?_, ?_, ?_, fun sym => ?_, htree, htab⟩
  · rw [hresp', hresp, List.append_assoc]
  · rw [List.length_append, hlen, hlen', allSymbols_length]
  · exact List.forall_mem_append.2 ⟨hok, hok'⟩
  · rw [← hloaded, State.readFreq, State.readFreq, hkept]

/-- Settles O17: both resets are `applyReset`, which keeps the streams, and in the reset state the commands that read the
three tables fail the state check of R201. -/
theorem resetTable : Obligations.ResetTable := by
  refine ⟨isReset_reset, fun s rest hport => ?hardware, fun s => ?soft, fun t i hreset hform hreads => ?unread⟩
  case hardware => exact ⟨_, step_hardReset hport, isReset_applyReset _, rfl, rfl⟩
  case soft => exact ⟨_, exec_softReset s, isReset_respond (isReset_applyReset s) 0, rfl, rfl⟩
  case unread => exact exec_badState_afterError (badStateWhen_of_isReset hreset hreads) hform

end Sys2Proof.Claims
end
